-- ==== Sys2Proof/Word.lean ====
section
/-! DEFINITION. The words of the block: an 8-bit word or symbol, and the bit string.

Two conventions, which never meet (R11): a `Byte` numbers bit 0 as its least significant bit; a `Bits` is
MSB-first, its element 0 the leftmost and most significant bit (R9, R10, R51). -/

namespace Sys2Proof

/-- An 8-bit word: CMD and STATUS (R11, R22, R23). -/
abbrev Byte := BitVec 8

/-- The 8-bit code by which one bit value crosses the host interface (R9, R75). -/
abbrev Symbol := BitVec 8

/-- A bit string, index 0 leftmost and most significant (R9, R10). -/
abbrev Bits := List Bool

end Sys2Proof
end

