-- ==== Sys2Proof/Config.lean ====
section
/-! DEFINITION. The fixed constants of the block (R6) and the parameters an implementation chooses (R7).

The parameters are arguments of `Sys2Proof.Machine.stepWith` (R40: "A model makes them arguments of its step
relation"); the machine of this row takes the opaque `Config.params`, of which nothing but R7's bounds can be proved
(log 1, safe). -/

namespace Sys2Proof

/-- The parameters R7 leaves open. A capacity `none` is "unbounded". -/
structure Params where
  /-- MAX_DATA_LEN, in symbols. -/
  maxDataLen : Option Nat
  /-- MAX_GEN_LEN, in symbols. -/
  maxGenLen : Option Nat
  /-- N_INSTANCES. -/
  nInstances : Nat
deriving DecidableEq, Repr

/-- A capacity of at least `least` symbols, or unbounded. -/
def Params.capacityOk (least : Nat) : Option Nat → Bool
  | none => true
  | some c => decide (least ≤ c)

/-- R7's bounds: MAX_DATA_LEN ≥ 1, MAX_GEN_LEN ≥ 2, N_INSTANCES ≥ 1. -/
def Params.wf (p : Params) : Bool :=
  Params.capacityOk 1 p.maxDataLen && Params.capacityOk 2 p.maxGenLen && decide (1 ≤ p.nInstances)

/-- `n` symbols fit a register of this capacity (R55). -/
def Params.fits : Option Nat → Nat → Bool
  | none, _ => true
  | some c, n => decide (n ≤ c)

/-- W_SMALL (R6). -/
def Config.wSmall : Nat := 4

/-- W_LARGE (R6). -/
def Config.wLarge : Nat := 8

/-- W_THRESHOLD (R6). -/
def Config.wThreshold : Nat := 16

/-- DEFAULT_GEN, the bit string "1001" (R6). -/
def Config.defaultGen : Bits := [true, false, false, true]

/-- ERR_BIT, the index of the bit the channel flips (R6). -/
def Config.errBit : Nat := 0

/-- MIN_GEN_LEN (R6). -/
def Config.minGenLen : Nat := 2

/-- MIN_DATA_LEN (R6). -/
def Config.minDataLen : Nat := 1

/-- MAX_DATA_LEN beyond its least value 1, or `none` for unbounded: open (R7, log 1). -/
opaque Config.dataRoom : Option Nat

/-- MAX_GEN_LEN beyond its least value 2, or `none` for unbounded: open (R7, log 1). -/
opaque Config.genRoom : Option Nat

/-- N_INSTANCES beyond its least value 1: open (R7, log 1). -/
opaque Config.moreInstances : Nat

/-- The parameters of the machine of this row: any that R7 admits. -/
def Config.params : Params :=
  { maxDataLen := Config.dataRoom.map (· + 1)
    maxGenLen := Config.genRoom.map (· + 2)
    nInstances := Config.moreInstances + 1 }

end Sys2Proof
end

