-- ==== Sys2Proof/Syntax.lean ====
section
/-! DEFINITION. What the block can be told: its four commands (the rows of spec/opcode_table.json), the host's register
accesses, the platform's reset, and the lines of a host program in the spec's syntax. -/

namespace Sys2Proof

/-- The command words of R70, one constructor per row of the opcode table. `inj` is INJ = CMD[2] (R72), `gsup` is
GSUP = CMD[3] (R73). -/
inductive Instr where
  /-- TECH = 0, row VRC (R142). -/
  | vrc (inj gsup : Bool)
  /-- TECH = 1, row LRC (R153). -/
  | lrc (inj gsup : Bool)
  /-- TECH = 2, row CRC (R174). -/
  | crc (inj gsup : Bool)
  /-- TECH = 3, row CHECKSUM (R193). -/
  | checksum (inj gsup : Bool)
deriving DecidableEq, Repr

/-- The technique a command selects: the values of the TECH field (R71). -/
inductive Technique where
  | vrc
  | lrc
  | crc
  | checksum
deriving DecidableEq, Repr

/-- The typed failures of a command (R220). They are values of STATUS.FAULT, not faults of the model. -/
inductive Failure where
  /-- A symbol of an operand the command reads is no bit symbol. -/
  | invalidAlphabet
  /-- CRC with GSUP = 1 and fewer than 2 symbols in GEN. -/
  | degenerateGenerator
  /-- DATA is empty. -/
  | emptyInput
  /-- xor or fixedWidthIncrement on unequal lengths; unreachable from any command (R224). -/
  | lengthMismatch
  /-- CMD[7:4] is not 0. -/
  | reservedCommand
deriving DecidableEq, Repr

/-- The seven host-visible registers of an instance (R21). -/
inductive HostRegister where
  | cmd
  | status
  | data
  | gen
  | orig
  | tx
  | rx
deriving DecidableEq, Repr

/-- What one access moves: an 8-bit word, or a whole string of symbols (R52, R54). -/
inductive RegValue where
  | word (w : Byte)
  | symbols (syms : List Symbol)
deriving DecidableEq, Repr

/-- One host access to an instance, by register number (R21, R57). Numbers without a register are syntax too: the
host can issue such an access, and it is refused (R233). -/
inductive HostOp where
  | read (reg : Nat)
  | write (reg : Nat) (v : RegValue)
deriving DecidableEq, Repr

/-- What can reach the block from outside: a host access to the instance with this index, or a reset of the block
(R20, R57, R250). -/
inductive HostEvent where
  | access (engine : Nat) (op : HostOp)
  | reset
deriving DecidableEq, Repr

/-- One line of a host program (R79), the pseudo-instructions of R80 included. -/
inductive HostLine where
  /-- `wr DATA, "<chars>"` -/
  | wrData (syms : List Symbol)
  /-- `wr GEN, "<chars>"` -/
  | wrGen (syms : List Symbol)
  /-- `vrc [<mods>]` and its three siblings -/
  | command (t : Technique) (inj gsup : Bool)
  /-- `cmd 0xNN` -/
  | cmd (w : Byte)
  /-- `rd <REG>` -/
  | rd (r : HostRegister)
  /-- `run <tech> "<d>"[, inj]` -/
  | run (t : Technique) (d : List Symbol) (inj : Bool)
  /-- `runcrc "<d>", "<g>"[, inj]` -/
  | runcrc (d g : List Symbol) (inj : Bool)
deriving DecidableEq, Repr

end Sys2Proof
end

