-- ==== Sys2Proof/WellFormed.lean ====
section
/-! DEFINITION. Which terms of the syntax the spec admits.

Every value of an instruction's two flags is legal (R71, R72, R73), so an instruction has nothing to check. A host
access has: it names an assigned register it may access, moves a value of that register's kind, and fits its capacity
(R21, R54, R55). `Sys2Proof.Machine.hostAccess` refuses the others by name. -/

namespace Sys2Proof

/-- Every TECH value selects a command and both flags are free (R71, R72, R73): no term of `Instr` is ill-formed. -/
def Instr.wf : Instr → Bool
  | .vrc _ _ => true
  | .lrc _ _ => true
  | .crc _ _ => true
  | .checksum _ _ => true

/-- The accesses that are not refused: any read of registers 0 to 6, a word to CMD (0), a string that fits to
DATA (2) or GEN (3). -/
def HostOp.wf (p : Params) : HostOp → Bool
  | .read r => decide (r ≤ 6)
  | .write 0 (.word _) => true
  | .write 2 (.symbols syms) => Params.fits p.maxDataLen syms.length
  | .write 3 (.symbols syms) => Params.fits p.maxGenLen syms.length
  | .write _ _ => false

/-- An event that the block with these parameters takes: an instance is named by its index in [0, N_INSTANCES) (R57). -/
def HostEvent.wf (p : Params) : HostEvent → Bool
  | .access k op => decide (k < p.nInstances) && op.wf p
  | .reset => true

end Sys2Proof
end

