-- ==== Sys2Proof/Decode.lean ====
section
/-! DEFINITION. The command word: its fields, the decoder (total on all 256 words) and the encoder (R70 to R77). -/

namespace Sys2Proof

/-- TECH = CMD[1:0] (R22, R71). -/
def cmdTech (w : Byte) : BitVec 2 := w.extractLsb' 0 2

/-- INJ = CMD[2] (R22, R72). -/
def cmdInj (w : Byte) : Bool := w.getLsbD 2

/-- GSUP = CMD[3] (R22, R73). -/
def cmdGsup (w : Byte) : Bool := w.getLsbD 3

/-- CMD[7:4], reserved (R22, R74). -/
def cmdReserved (w : Byte) : BitVec 4 := w.extractLsb' 4 4

/-- The technique a TECH value selects; every value selects one (R71). -/
def techOf (t : BitVec 2) : Technique :=
  if t = 0#2 then .vrc
  else if t = 1#2 then .lrc
  else if t = 2#2 then .crc
  else .checksum

/-- The command of a technique with its two flags. -/
def Technique.toInstr : Technique → Bool → Bool → Instr
  | .vrc, inj, gsup => .vrc inj gsup
  | .lrc, inj, gsup => .lrc inj gsup
  | .crc, inj, gsup => .crc inj gsup
  | .checksum, inj, gsup => .checksum inj gsup

/-- R77: a word with CMD[7:4] ≠ 0 is rejected with ReservedCommand; every other word is one of the four commands. -/
def decode (w : Byte) : Except Failure Instr :=
  if cmdReserved w = 0#4 then .ok ((techOf (cmdTech w)).toInstr (cmdInj w) (cmdGsup w))
  else .error .reservedCommand

/-- The TECH value of a technique (R71). -/
def Technique.code : Technique → BitVec 2
  | .vrc => 0#2
  | .lrc => 1#2
  | .crc => 2#2
  | .checksum => 3#2

/-- The pattern `0000gitt` of R70, most significant bit first. -/
def commandWord (t : Technique) (inj gsup : Bool) : Byte :=
  0#4 ++ BitVec.ofBool gsup ++ BitVec.ofBool inj ++ t.code

/-- The word of an instruction (R70, R71, opcode_table.json). -/
def encode : Instr → Byte
  | .vrc inj gsup => commandWord .vrc inj gsup
  | .lrc inj gsup => commandWord .lrc inj gsup
  | .crc inj gsup => commandWord .crc inj gsup
  | .checksum inj gsup => commandWord .checksum inj gsup

/-- A row of spec/opcode_table.json: the words `w` with `w &&& mask = match`. -/
structure OpcodeRow where
  technique : Technique
  pattern : Byte
  mask : Byte
deriving DecidableEq, Repr

/-- The four rows of spec/opcode_table.json, as the table gives them. -/
def opcodeTable : List OpcodeRow :=
  [ { technique := .vrc, pattern := 0x00#8, mask := 0xF3#8 },
    { technique := .lrc, pattern := 0x01#8, mask := 0xF3#8 },
    { technique := .crc, pattern := 0x02#8, mask := 0xF3#8 },
    { technique := .checksum, pattern := 0x03#8, mask := 0xF3#8 } ]

/-- The row's words. -/
def OpcodeRow.matches (r : OpcodeRow) (w : Byte) : Bool := w &&& r.mask == r.pattern

/-- The one byte of an instruction word given as its table's number: bits above `nbits` are 0. -/
def tableByte (nbits w : Nat) : Byte := BitVec.ofNat 8 (w % 2 ^ nbits)

/-- What the decoder reads from an instruction word numbered as spec/opcode_table.json numbers it (bit 0 least
significant, as in R11). -/
def decodeTableWord (nbits w : Nat) : Option Instr := (decode (tableByte nbits w)).toOption

/-- The register with this number; 7 and above are unassigned (R21). -/
def HostRegister.ofNumber : Nat → Option HostRegister
  | 0 => some .cmd
  | 1 => some .status
  | 2 => some .data
  | 3 => some .gen
  | 4 => some .orig
  | 5 => some .tx
  | 6 => some .rx
  | _ => none

/-- The number of a register (R21). -/
def HostRegister.number : HostRegister → Nat
  | .cmd => 0
  | .status => 1
  | .data => 2
  | .gen => 3
  | .orig => 4
  | .tx => 5
  | .rx => 6

end Sys2Proof
end

