-- ==== Sys2Proof/Machine/State.lean ====
section
/-! DEFINITION. What the machine holds: the register set of each engine instance (R21) and the inputs and outputs of
the host interface; the reasons a step stops; the state right after reset (R36, R250). -/

namespace Sys2Proof.Machine

/-- The registers of one engine instance (R21). There is nothing else in it (R35, R38, R39, R50). -/
structure Engine where
  /-- Register 0: the last command word written (R22). -/
  cmd : Byte
  /-- Register 1: the outcome of the last command (R23). -/
  status : Byte
  /-- Register 2: the `data` operand, in symbols (R24). -/
  data : List Symbol
  /-- Register 3: the `generator` operand, in symbols (R25). -/
  gen : List Symbol
  /-- Register 4: `original_data`; `none` is "holding no value" (R26, R37). -/
  orig : Option Bits
  /-- Register 5: `transmitted_data` (R27, R37). -/
  tx : Option Bits
  /-- Register 6: `received_data` (R28, R37). -/
  rx : Option Bits
deriving DecidableEq, Repr

/-- The reset values of R36, every one given there. -/
def Engine.reset : Engine :=
  { cmd := 0x00#8, status := 0x00#8, data := [], gen := [], orig := none, tx := none, rx := none }

/-- The model fault ReadUnwritten: a host read of ORIG, TX or RX while it holds no value (R37, R233). It is an outcome
of the model and no register: it is never written to STATUS. -/
structure ReadUnwritten where
  /-- The instance that was read. -/
  engine : Nat
  /-- The register that held no value. -/
  reg : HostRegister
deriving DecidableEq, Repr

/-- The block's instances, the recorded model faults, and the host interface. `pending`, `received` and `sel` are the
model's own fields, not registers of the block (logs 2, 4, 5). -/
structure State where
  /-- The N_INSTANCES register sets, by index (R20, R57, R232). -/
  engines : List Engine
  /-- The index of the instance that the access being taken names (R57, log 5). -/
  sel : Nat
  /-- The host accesses and platform resets still to come, oldest first (R39, R58, log 2). -/
  pending : List HostEvent
  /-- What the host's reads have returned, oldest first (R54, R76, log 4). -/
  received : List RegValue
  /-- The ReadUnwritten faults recorded so far, oldest first; a state is faulted where there is one (R233, log 6). -/
  faults : List ReadUnwritten
deriving DecidableEq, Repr

/-- The reasons that stop the machine: none. A failure of a command is a next state with its code in STATUS (R223),
and the model fault ReadUnwritten is a next state that records it (R233, log 6). -/
inductive Fault where
deriving DecidableEq, Repr

/-- Why a step has no meaning. The spec's own word for the host accesses among them is "refused" (R233, log 7). -/
inductive Refusal where
  /-- An instruction that has no meaning yet. No arm of `exec` answers so. Safe. -/
  | notModelled (mnemonic : String)
  /-- An access to an instance index outside [0, N_INSTANCES) (R57). Raised by `State.onSelected`. Safe. -/
  | noSuchInstance (engine : Nat)
  /-- A read or write of a register number 7 or above (R21, R233). Raised by `hostRead` and `hostWrite`. Safe. -/
  | unassignedRegister (reg : Nat)
  /-- A write to STATUS, ORIG, TX or RX (R21, R233). Raised by `hostWrite`. Safe. -/
  | readOnlyRegister (reg : HostRegister)
  /-- A string longer than the capacity of DATA or GEN (R55, R233). Raised by `hostWrite`. Safe. -/
  | overCapacity (reg : HostRegister)
  /-- A string written to CMD, or a word written to DATA or GEN: no access of R54, which moves 8 bits for the one and
  a string for the others. Raised by `hostWrite`. Safe. -/
  | wrongKind (reg : HostRegister)
deriving DecidableEq, Repr

/-- The outcomes of this machine's steps. -/
abbrev Outcome := Host.Outcome State Fault Refusal

/-- The state right after reset of a block with these parameters: every instance at R36's values, no fault
recorded, no input waiting and nothing returned (R36, R250, logs 2, 4, 5, 6). -/
def State.resetFor (p : Params) : State :=
  { engines := List.replicate p.nInstances Engine.reset, sel := 0, pending := [], received := [],
    faults := [] }

/-- The state right after reset of the machine of this row. -/
def State.reset : State := State.resetFor Config.params

end Sys2Proof.Machine
end

