-- ==== Sys2Proof/Machine/Operands.lean ====
section
/-! DEFINITION. Bit-string notation (R10), the conversion between symbols and bits (R75, R76), and block framing
(R123 to R126, R130). -/

namespace Sys2Proof.Machine

/-- `rep(k, v)`: the string of k copies of bit v (R10). -/
def rep (k : Nat) (v : Bool) : Bits := List.replicate k v

/-- `s[i]` (R10). Every rule indexes inside the string; outside it this reads 0 (log 12). -/
def bitAt (s : Bits) (i : Nat) : Bool := s.getD i false

/-- `s[a..b)` (R10). -/
def slice (s : Bits) (a b : Nat) : Bits := (s.drop a).take (b - a)

/-- `val(s)`, the unsigned value with s[0] the most significant (R10). -/
def val : Bits → Nat
  | [] => 0
  | b :: rest => b.toNat * 2 ^ rest.length + val rest

/-- `bin_w(v)`: the w-bit string of value v mod 2^w (R10). -/
def binW : Nat → Nat → Bits
  | 0, _ => []
  | w + 1, v => v.testBit w :: binW w v

/-- `flip(b)` (R10). -/
def flipBit (b : Bool) : Bool := !b

/-- `count1(s)` (R10). -/
def count1 (s : Bits) : Nat := s.count true

/-- `all(s, v)`; true of the empty string (R10). -/
def allBits (s : Bits) (v : Bool) : Bool := s.all (· == v)

/-- The code of bit 0, the character '0' (R75). -/
def symbol0 : Symbol := 0x30#8

/-- The code of bit 1, the character '1' (R75). -/
def symbol1 : Symbol := 0x31#8

/-- The two codes that stand for a bit; every other code is an invalid symbol (R75). -/
def isBitSymbol (c : Symbol) : Bool := c == symbol0 || c == symbol1

/-- The bit of a symbol, where it has one (R75). -/
def symbolBit (c : Symbol) : Except Failure Bool :=
  if c = symbol0 then .ok false
  else if c = symbol1 then .ok true
  else .error .invalidAlphabet

/-- `bits(R)`: the bit string of a symbol register, of the same length (R75, R122). It fails on an invalid symbol,
which `Engine.validate` has ruled out before any command converts. -/
def bits : List Symbol → Except Failure Bits
  | [] => .ok []
  | c :: rest => do
    let b ← symbolBit c
    let bs ← bits rest
    pure (b :: bs)

/-- The symbol of a bit (R76). -/
def bitSymbol (b : Bool) : Symbol := if b then symbol1 else symbol0

/-- A result register's string as the host reads it, index 0 first (R52, R76). -/
def toSymbols (s : Bits) : List Symbol := s.map bitSymbol

/-- `generator_operand`: bits(GEN) with GSUP = 1, else DEFAULT_GEN (R73). -/
def Engine.generatorOperand (e : Engine) (gsup : Bool) : Except Failure Bits :=
  if gsup then bits e.gen else .ok Config.defaultGen

/-- `blockWidth(n)`, of the length of the unpadded data (R123). -/
def blockWidth (n : Nat) : Nat := if n ≤ Config.wThreshold then Config.wSmall else Config.wLarge

/-- `padAmount(n, w)` (R124). -/
def padAmount (n w : Nat) : Nat := if n % w = 0 then 0 else w - n % w

/-- LRC pads on the right (R125). -/
def padRight (d : Bits) (w : Nat) : Bits := d ++ rep (padAmount d.length w) false

/-- Checksum pads on the left (R126); the difference from R125 is deliberate. -/
def padLeft (d : Bits) (w : Nat) : Bits := rep (padAmount d.length w) false ++ d

/-- `partition(s, w)`: B_j = s[j·w .. (j+1)·w) for j < len(s) / w (R130). -/
def partition (s : Bits) (w : Nat) : List Bits :=
  (List.range (s.length / w)).map fun j => slice s (j * w) ((j + 1) * w)

end Sys2Proof.Machine
end

