-- ==== Sys2Proof/Machine/BitArithmetic.lean ====
section
/-! DEFINITION. The BitArithmetic primitives (R100 to R106): pure functions of bit strings, without a command of
their own (R78). Unequal lengths raise LengthMismatch, which no command reaches (R224). -/

namespace Sys2Proof.Machine

/-- `xor(a, b)` (R100). -/
def bitXor (a b : Bits) : Except Failure Bits :=
  if a.length = b.length then .ok (List.zipWith (· != ·) a b) else .error .lengthMismatch

/-- `onesComplement(s)` (R101). -/
def onesComplement (s : Bits) : Bits := s.map flipBit

/-- `parity(s)`: the linear chain of R102, from index 0. -/
def parity (s : Bits) : Bool := s.foldl (fun p b => p != b) false

/-- The ripple of R103: the sum bits and the carry-out, carries running from the last index to index 0. -/
def ripple : Bits → Bits → Bits × Bool
  | a :: as, b :: bs =>
    let (s, c) := ripple as bs
    let t := a.toNat + b.toNat + c.toNat
    ((t % 2 == 1) :: s, t / 2 == 1)
  | _, _ => ([], false)

/-- `fixedWidthIncrement(a, b)`: the fixed-width carry adder (R103). -/
def fixedWidthIncrement (a b : Bits) : Except Failure (Bits × Bool) :=
  if a.length = b.length then .ok (ripple a b) else .error .lengthMismatch

/-- R104's loop `while c = 1: (s, c) <- fixedWidthIncrement(s, bin_w(1))`, its body at most `fuel` times. -/
def wrapCarry : Nat → Bits × Bool → Except Failure Bits
  | _, (s, false) => .ok s
  | 0, (s, true) => .ok s
  | fuel + 1, (s, true) => do
    let r ← fixedWidthIncrement s (binW s.length 1)
    wrapCarry fuel r

/-- `eacAdd(a, b)`: end-around-carry addition (R104). The loop body runs at most once, so a fuel of 2 never runs out
(R104, R256, log 10). -/
def eacAdd (a b : Bits) : Except Failure Bits := do
  let r ← fixedWidthIncrement a b
  wrapCarry 2 r

end Sys2Proof.Machine
end

