-- ==== Sys2Proof/Machine/Flags.lean ====
section
/-! DEFINITION. The STATUS word: its fields, its layout, and the words a command can leave in it (R23, R29, R220). -/

namespace Sys2Proof.Machine

/-- STATUS.STATE = STATUS[1:0] (R23). -/
def statusState (w : Byte) : BitVec 2 := w.extractLsb' 0 2

/-- STATUS.ERRDET = STATUS[2], the block's one flag (R23, R29). -/
def statusErrdet (w : Byte) : Bool := w.getLsbD 2

/-- STATUS.FAULT = STATUS[6:4] (R23). -/
def statusFault (w : Byte) : BitVec 3 := w.extractLsb' 4 3

/-- STATE = 0, no command since reset (R23). -/
def stateIdle : BitVec 2 := 0#2

/-- STATE = 1, the last command completed (R23). -/
def stateDone : BitVec 2 := 1#2

/-- STATE = 2, the last command failed (R23). -/
def stateFailed : BitVec 2 := 2#2

/-- The STATUS layout; bits 3 and 7 read 0 (R23). -/
def statusWord (state : BitVec 2) (errdet : Bool) (fault : BitVec 3) : Byte :=
  0#1 ++ fault ++ 0#1 ++ BitVec.ofBool errdet ++ state

end Sys2Proof.Machine

namespace Sys2Proof

/-- The STATUS.FAULT code of a failure (R220). Codes 6 and 7 are never produced. -/
def Failure.code : Failure → BitVec 3
  | .invalidAlphabet => 1#3
  | .degenerateGenerator => 2#3
  | .emptyInput => 3#3
  | .lengthMismatch => 4#3
  | .reservedCommand => 5#3

end Sys2Proof

namespace Sys2Proof.Machine

/-- STATUS after a command that completed: DONE, the verdict, FAULT 0 (R129). -/
def doneStatus (err : Bool) : Byte := statusWord stateDone err 0#3

/-- STATUS after a command that failed: FAILED, ERRDET 0, its code (R223). -/
def failedStatus (f : Failure) : Byte := statusWord stateFailed false f.code

end Sys2Proof.Machine
end

