-- ==== Sys2Proof/Machine/Ops.lean ====
section
/-! DEFINITION. The operations every command shares: reaching the selected instance, validation (R222), the three
stages and the channel (R2, R121, R127), the commit of a result (R129), and taking a failure (R223). -/

namespace Sys2Proof.Machine

/-! ### The selected instance -/

/-- The registers of the instance that the access names. -/
def State.selected (s : State) : Option Engine := s.engines[s.sel]?

/-- Replaces the registers of the selected instance, and nothing else (R20: instances share no state). -/
def State.setSelected (s : State) (e : Engine) : State := { s with engines := s.engines.set s.sel e }

/-- Acts on the selected instance; an index that names none is refused (R57). -/
def State.onSelected (s : State) (act : Engine → Outcome) : Outcome :=
  match s.selected with
  | some e => act e
  | none => .refused (.noSuchInstance s.sel)

/-! ### Validation -/

/-- `validate(tech, gsup)`: the first applicable failure, in the order of R222. ReservedCommand comes earlier, from
`decode`. -/
def Engine.validate (e : Engine) (tech : Technique) (gsup : Bool) : Except Failure Unit :=
  let readsGen := decide (tech = .crc) && gsup
  if !e.data.all isBitSymbol then .error .invalidAlphabet
  else if readsGen && !e.gen.all isBitSymbol then .error .invalidAlphabet
  else if readsGen && decide (e.gen.length < Config.minGenLen) then .error .degenerateGenerator
  else if e.data.length < Config.minDataLen then .error .emptyInput
  else .ok ()

/-! ### The three stages -/

/-- What a command that completes returns: `Ok(orig, tx, rx, err)` (R121). -/
structure CommandResult where
  orig : Bits
  tx : Bits
  rx : Bits
  err : Bool
deriving DecidableEq, Repr

/-- `flip0(s)`: bit ERR_BIT = 0, the leftmost, flipped (R127). -/
def flip0 (s : Bits) : Bits := s.modify Config.errBit flipBit

/-- The channel stage (R127). -/
def channel (tx : Bits) (inj : Bool) : Bits := if inj then flip0 tx else tx

/-- Sender, channel, receiver, in this order (R2, R121). -/
def runStages (d : Bits) (send : Except Failure Bits) (inj : Bool) (recv : Bits → Except Failure Bool) :
    Except Failure CommandResult := do
  let tx ← send
  let rx := channel tx inj
  let err ← recv rx
  pure { orig := d, tx := tx, rx := rx, err := err }

/-! ### Commit -/

/-- `commit_success` (R129). CMD, DATA and GEN are not changed. -/
def Engine.commitSuccess (e : Engine) (r : CommandResult) : Engine :=
  { e with orig := some r.orig, tx := some r.tx, rx := some r.rx, status := doneStatus r.err }

/-- `commit_failure`, the block's one exception entry (R223): FAILED and the code in STATUS, ERRDET 0, and ORIG, TX
and RX hold no value. CMD, DATA and GEN are not changed. There is no vector, saved state or mode, and no return: the
next CMD write runs normally (R226). -/
def Engine.commitFailure (e : Engine) (f : Failure) : Engine :=
  { e with status := failedStatus f, orig := none, tx := none, rx := none }

/-- The commit of `execute`'s outcome (R120). -/
def Engine.commit (e : Engine) : Except Failure CommandResult → Engine
  | .ok r => e.commitSuccess r
  | .error f => e.commitFailure f

/-- Runs a command on the selected instance and commits its outcome (R120, R121). -/
def State.command (s : State) (run : Engine → Except Failure CommandResult) : Outcome :=
  s.onSelected fun e => .next (s.setSelected (e.commit (run e)))

/-- Takes a failure on the selected instance (R223). -/
def State.takeFailure (s : State) (f : Failure) : Outcome :=
  s.command fun _ => .error f

/-! ### Register access -/

/-- What a host read of the register returns; `none` while it holds no value (R37, R54, R76). -/
def Engine.readRegister (e : Engine) : HostRegister → Option RegValue
  | .cmd => some (.word e.cmd)
  | .status => some (.word e.status)
  | .data => some (.symbols e.data)
  | .gen => some (.symbols e.gen)
  | .orig => e.orig.map fun s => .symbols (toSymbols s)
  | .tx => e.tx.map fun s => .symbols (toSymbols s)
  | .rx => e.rx.map fun s => .symbols (toSymbols s)

/-- Records a ReadUnwritten fault, after those recorded before (R233). No operation removes one. -/
def State.recordFault (s : State) (f : ReadUnwritten) : State := { s with faults := s.faults ++ [f] }

/-- A reset of the block: every register of every instance at its value of R36; no command runs (R250). The host's
side of the interface is not the block's and stays (log 8), and so do the recorded faults, which no later step clears
(R233). -/
def State.resetEngines (s : State) : State := { s with engines := s.engines.map fun _ => Engine.reset }

end Sys2Proof.Machine
end

