-- ==== Sys2Proof/Machine/Checksum.lean ====
section
/-! DEFINITION. The CHECKSUM command: end-around-carry sum of left-padded blocks, then the one's complement (R190 to
R193). -/

namespace Sys2Proof.Machine

/-- The fold of `csumFold` from a running sum S (R190). -/
def csumFrom : Bits → List Bits → Except Failure Bits
  | sum, [] => .ok sum
  | sum, b :: rest => do
    let sum' ← eacAdd sum b
    csumFrom sum' rest

/-- `csumFold`: the running sum starts at B_0 (R190). Every caller has a block; with none the sum is empty (log 12). -/
def csumFold : List Bits → Except Failure Bits
  | [] => .ok []
  | b :: rest => csumFrom b rest

/-- The Checksum sender (R191). -/
def csumSend (d : Bits) (w : Nat) : Except Failure Bits := do
  let p := padLeft d w
  let sum ← csumFold (partition p w)
  pure (p ++ onesComplement sum)

/-- The Checksum receiver's final sum F: the data blocks, then the trailing block (R192). -/
def csumFinal (r : Bits) (w : Nat) : Except Failure Bits := do
  let blocks := partition r w
  let sum ← csumFold blocks.dropLast
  eacAdd sum (blocks.getLastD [])

/-- The Checksum receiver (R192). -/
def csumRecv (r : Bits) (w : Nat) : Except Failure Bool := do
  let f ← csumFinal r w
  pure (!allBits f true)

/-- CHECKSUM on an instance's operands; the receiver uses the sender's block width (R121, R193). -/
def checksumRun (inj gsup : Bool) (e : Engine) : Except Failure CommandResult := do
  e.validate .checksum gsup
  let d ← bits e.data
  let w := blockWidth d.length
  runStages d (csumSend d w) inj fun r => csumRecv r w

/-- CHECKSUM (R193). GSUP is read and ignored (R73). -/
def execChecksum (inj gsup : Bool) (s : State) : Outcome := s.command (checksumRun inj gsup)

end Sys2Proof.Machine
end

