-- ==== Sys2Proof/Machine/Crc.lean ====
section
/-! DEFINITION. The CRC command: mod-2 long division by the working-register procedure (R170, R172 to R174). The
procedure is normative; the polynomial law R171 is a claim about it. -/

namespace Sys2Proof.Machine

/-- The datapath of the division: the working register REG and the index of the next undrawn input bit (R33). -/
structure CrcWork where
  reg : Bits
  pick : Nat
deriving DecidableEq, Repr

/-- XOR-or-pass and drop: REG xored with g if its leading bit is 1, else with zeros; then the leading bit is dropped
whatever its value (R170, 90_conflicts.md C6). -/
def crcReduce (g reg : Bits) : Except Failure Bits := do
  let x ← if bitAt reg 0 then bitXor g reg else bitXor (rep g.length false) reg
  pure (x.drop 1)

/-- One turn of the loop: reduce, then append the next undrawn bit (R170). -/
def crcDraw (g s : Bits) (k : CrcWork) : Except Failure CrcWork := do
  let x ← crcReduce g k.reg
  pure { reg := x ++ [bitAt s k.pick], pick := k.pick + 1 }

/-- The loop, this many turns. -/
def crcLoop (g s : Bits) : Nat → CrcWork → Except Failure CrcWork
  | 0, k => .ok k
  | turns + 1, k => do
    let k' ← crcDraw g s k
    crcLoop g s turns k'

/-- The datapath before the loop: the first l bits, the next undrawn index l (R170). -/
def crcStart (s g : Bits) : CrcWork := { reg := slice s 0 g.length, pick := g.length }

/-- `mod2div(s, g)`: the loop body runs exactly m − l times, then the final step once (R170). No early exit. -/
def mod2div (s g : Bits) : Except Failure Bits := do
  let k ← crcLoop g s (s.length - g.length) (crcStart s g)
  crcReduce g k.reg

/-- The CRC sender (R172). -/
def crcSend (d g : Bits) : Except Failure Bits := do
  let rem ← mod2div (d ++ rep (g.length - 1) false) g
  pure (d ++ rem)

/-- The CRC receiver (R173). -/
def crcRecv (r g : Bits) : Except Failure Bool := do
  let rem ← mod2div r g
  pure (!allBits rem false)

/-- CRC on an instance's operands (R121, R174). -/
def crcRun (inj gsup : Bool) (e : Engine) : Except Failure CommandResult := do
  e.validate .crc gsup
  let d ← bits e.data
  let g ← e.generatorOperand gsup
  runStages d (crcSend d g) inj fun r => crcRecv r g

/-- CRC (R174). -/
def execCrc (inj gsup : Bool) (s : State) : Outcome := s.command (crcRun inj gsup)

end Sys2Proof.Machine
end

