-- ==== Sys2Proof/Machine/Lrc.lean ====
section
/-! DEFINITION. The LRC command: per-column parity over right-padded blocks, checked with the check block included
(R150 to R153). -/

namespace Sys2Proof.Machine

/-- `colParity(blocks, w)`: lane c is the parity of bit c of every block (R150). -/
def colParity (blocks : List Bits) (w : Nat) : Bits :=
  (List.range w).map fun c => parity (blocks.map fun b => bitAt b c)

/-- The LRC sender (R151). -/
def lrcSend (d : Bits) (w : Nat) : Bits :=
  let p := padRight d w
  p ++ colParity (partition p w) w

/-- The LRC receiver, over every block of the received string, the LRC block included (R152). -/
def lrcRecv (r : Bits) (w : Nat) : Bool := !allBits (colParity (partition r w) w) false

/-- LRC on an instance's operands; the receiver uses the sender's block width (R121, R153). -/
def lrcRun (inj gsup : Bool) (e : Engine) : Except Failure CommandResult := do
  e.validate .lrc gsup
  let d ← bits e.data
  let w := blockWidth d.length
  runStages d (.ok (lrcSend d w)) inj fun r => .ok (lrcRecv r w)

/-- LRC (R153). GSUP is read and ignored (R73). -/
def execLrc (inj gsup : Bool) (s : State) : Outcome := s.command (lrcRun inj gsup)

end Sys2Proof.Machine
end

