-- ==== Sys2Proof/Machine/Vrc.lean ====
section
/-! DEFINITION. The VRC command: one parity bit over the whole string, no block framing (R140 to R142). -/

namespace Sys2Proof.Machine

/-- The VRC sender (R140). -/
def vrcSend (d : Bits) : Bits := d ++ [parity d]

/-- The VRC receiver (R141). -/
def vrcRecv (r : Bits) : Bool :=
  let m := r.length
  let receivedParity := bitAt r (m - 1)
  let recomputedParity := parity (slice r 0 (m - 1))
  recomputedParity != receivedParity

/-- VRC on an instance's operands (R121, R142). -/
def vrcRun (inj gsup : Bool) (e : Engine) : Except Failure CommandResult := do
  e.validate .vrc gsup
  let d ← bits e.data
  runStages d (.ok (vrcSend d)) inj fun r => .ok (vrcRecv r)

/-- VRC (R142). GSUP is read and ignored (R73). -/
def execVrc (inj gsup : Bool) (s : State) : Outcome := s.command (vrcRun inj gsup)

end Sys2Proof.Machine
end

