-- ==== Sys2Proof/Machine/Dispatch.lean ====
section
/-! DEFINITION. One arm per instruction: the command that a decoded word runs on the selected instance (R121). -/

namespace Sys2Proof.Machine

def exec (i : Instr) (s : State) : Host.Outcome State Fault Refusal :=
  match i with
  | .vrc inj gsup => Sys2Proof.Machine.execVrc inj gsup s
  | .lrc inj gsup => Sys2Proof.Machine.execLrc inj gsup s
  | .crc inj gsup => Sys2Proof.Machine.execCrc inj gsup s
  | .checksum inj gsup => Sys2Proof.Machine.execChecksum inj gsup s

end Sys2Proof.Machine
end

