-- ==== Sys2Proof/Machine/HostAccess.lean ====
section
/-! DEFINITION. What a step takes from outside: a host access to a register (R21, R54 to R56), the CMD write that
runs a command (R120), and a reset of the block (R250). -/

namespace Sys2Proof.Machine

/-- `on_write_CMD(v)`: CMD takes the word, reserved bits included, and the command runs whatever STATUS held; a
reserved word commits ReservedCommand (R22, R74, R120). -/
def onWriteCmd (v : Byte) (e : Engine) (s : State) : Outcome :=
  let s1 := s.setSelected { e with cmd := v }
  match decode v with
  | .error f => s1.takeFailure f
  | .ok i => exec i s1

/-- A host read of the register with this number: the value is returned whole and no register changes (R54, R56).
A register holding no value records the fault ReadUnwritten and returns no value, and an unassigned number is refused
(R37, R233). -/
def hostRead (reg : Nat) (e : Engine) (s : State) : Outcome :=
  match HostRegister.ofNumber reg with
  | none => .refused (.unassignedRegister reg)
  | some r =>
    match e.readRegister r with
    | none => .next (s.recordFault { engine := s.sel, reg := r })
    | some v => .next { s with received := s.received ++ [v] }

/-- A host write of a whole register (R21, R22, R24, R25, R54, R55). -/
def hostWrite (p : Params) (reg : Nat) (v : RegValue) (e : Engine) (s : State) : Outcome :=
  match HostRegister.ofNumber reg with
  | none => .refused (.unassignedRegister reg)
  | some .cmd =>
    match v with
    | .word w => onWriteCmd w e s
    | .symbols _ => .refused (.wrongKind .cmd)
  | some .data =>
    match v with
    | .word _ => .refused (.wrongKind .data)
    | .symbols syms =>
      if Params.fits p.maxDataLen syms.length then .next (s.setSelected { e with data := syms })
      else .refused (.overCapacity .data)
  | some .gen =>
    match v with
    | .word _ => .refused (.wrongKind .gen)
    | .symbols syms =>
      if Params.fits p.maxGenLen syms.length then .next (s.setSelected { e with gen := syms })
      else .refused (.overCapacity .gen)
  | some .status => .refused (.readOnlyRegister .status)
  | some .orig => .refused (.readOnlyRegister .orig)
  | some .tx => .refused (.readOnlyRegister .tx)
  | some .rx => .refused (.readOnlyRegister .rx)

/-- A host access to the instance with this index (R57). -/
def hostAccess (p : Params) (k : Nat) (op : HostOp) (s : State) : Outcome :=
  let s1 := { s with sel := k }
  s1.onSelected fun e =>
    match op with
    | .read reg => hostRead reg e s1
    | .write reg v => hostWrite p reg v e s1

/-- One input of the block. -/
def takeEvent (p : Params) (ev : HostEvent) (s : State) : Outcome :=
  match ev with
  | .access k op => hostAccess p k op s
  | .reset => .next s.resetEngines

/-- The host's write of a command word to the selected instance, as the next input. -/
def State.issue (s : State) (w : Byte) : State :=
  { s with pending := .access s.sel (.write HostRegister.cmd.number (.word w)) :: s.pending }

end Sys2Proof.Machine
end

