-- ==== Sys2Proof/Machine/Step.lean ====
section
/-! DEFINITION. One step: the block takes the oldest waiting input, whole (R58, R120). It fetches nothing (R39, R61):
its "next instruction" is the word of the host's next CMD write. -/

namespace Sys2Proof.Machine

/-- One step of a block with these parameters (R40). With no input waiting the block keeps its state (R235, log 3). -/
def stepWith (p : Params) (s : State) : Host.Outcome State Fault Refusal :=
  match s.pending with
  | [] => .next s
  | ev :: rest => takeEvent p ev { s with pending := rest }

/-- One step of the machine of this row. -/
def step (s : State) : Host.Outcome State Fault Refusal := stepWith Config.params s

/-- The state whose very next input is the host's write of this command word to the selected instance (log 2). -/
def State.withFetchWord (s : State) (nbits w : Nat) : State := s.issue (tableByte nbits w)

end Sys2Proof.Machine
end

