-- ==== Sys2Proof/Machine/HostSyntax.lean ====
section
/-! DEFINITION. Host programs in the spec's own syntax: reading a line of text (R79), and the host accesses it stands
for, the pseudo-instructions included (R79, R80). The block never sees this text (R39); the machine's step does not
depend on this file. The spellings R79 leaves open are log 13. -/

namespace Sys2Proof.Machine

/-! ### From lines to accesses -/

/-- The accesses of a line (R79, R80). -/
def HostLine.expand : HostLine → List HostOp
  | .wrData syms => [.write HostRegister.data.number (.symbols syms)]
  | .wrGen syms => [.write HostRegister.gen.number (.symbols syms)]
  | .command t inj gsup => [.write HostRegister.cmd.number (.word (commandWord t inj gsup))]
  | .cmd w => [.write HostRegister.cmd.number (.word w)]
  | .rd r => [.read r.number]
  | .run t d inj =>
    [ .write HostRegister.data.number (.symbols d),
      .write HostRegister.cmd.number (.word (commandWord t inj false)) ]
  | .runcrc d g inj =>
    [ .write HostRegister.data.number (.symbols d),
      .write HostRegister.gen.number (.symbols g),
      .write HostRegister.cmd.number (.word (commandWord .crc inj true)) ]

/-- A host program for the instance with this index: its accesses in order (R39, R58). -/
def programEvents (k : Nat) (lines : List HostLine) : List HostEvent :=
  (lines.flatMap HostLine.expand).map (HostEvent.access k)

/-! ### From text to lines -/

/-- The pieces of a line. -/
inductive Token where
  | name (cs : List Char)
  | str (syms : List Symbol)
  | comma
deriving DecidableEq, Repr

/-- Where the reader of a line stands; pieces are collected in reverse. -/
inductive LexState where
  | gap
  | inName (acc : List Char)
  | inStr (acc : List Symbol)
  /-- after `\` in a string -/
  | escape (acc : List Symbol)
  /-- after `\x` -/
  | hexHigh (acc : List Symbol)
  /-- after `\x` and one digit -/
  | hexLow (acc : List Symbol) (high : Nat)
  | comment
deriving DecidableEq, Repr

/-- The value of a hexadecimal digit, either case. -/
def hexDigit (c : Char) : Option Nat :=
  let n := c.toNat
  if 48 ≤ n ∧ n ≤ 57 then some (n - 48)
  else if 65 ≤ n ∧ n ≤ 70 then some (n - 55)
  else if 97 ≤ n ∧ n ≤ 102 then some (n - 87)
  else none

/-- A blank between the pieces of a line: space, tab or carriage return. -/
def isBlank (c : Char) : Bool := c == ' ' || c == '\t' || c == '\r'

/-- One character outside a string, with the name it ends, if any. -/
def lexPlain (ended : List Token) (c : Char) : Option (LexState × List Token) :=
  if c = ';' then some (.comment, ended)
  else if c = ',' then some (.gap, ended ++ [.comma])
  else if c = '"' then (if ended = [] then some (.inStr [], []) else none)
  else if isBlank c then some (.gap, ended)
  else none

/-- One character: the next standing and the pieces it completes. A `;` starts a comment outside a string (R79); in a
string each character is the symbol with its ASCII code, and `\xNN` the symbol with that code (R79). -/
def lexStep : LexState → Char → Option (LexState × List Token)
  | .gap, c => (lexPlain [] c).orElse fun _ => if c = '"' then none else some (.inName [c], [])
  | .inName acc, c =>
    (lexPlain [.name acc.reverse] c).orElse fun _ => if c = '"' then none else some (.inName (c :: acc), [])
  | .inStr acc, c =>
    if c = '"' then some (.gap, [.str acc.reverse])
    else if c = '\\' then some (.escape acc, [])
    else if c.toNat < 128 then some (.inStr (BitVec.ofNat 8 c.toNat :: acc), [])
    else none
  | .escape acc, c => if c = 'x' then some (.hexHigh acc, []) else none
  | .hexHigh acc, c => (hexDigit c).map fun h => (.hexLow acc h, [])
  | .hexLow acc h, c => (hexDigit c).map fun l => (.inStr (BitVec.ofNat 8 (16 * h + l) :: acc), [])
  | .comment, _ => some (.comment, [])

/-- The pieces still to come; a string must be closed on its line. -/
def lex : LexState → List Char → Option (List Token)
  | .gap, [] => some []
  | .comment, [] => some []
  | .inName acc, [] => some [.name acc.reverse]
  | .inStr _, [] => none
  | .escape _, [] => none
  | .hexHigh _, [] => none
  | .hexLow _ _, [] => none
  | st, c :: cs =>
    match lexStep st c with
    | none => none
    | some (st', toks) => (lex st' cs).map (toks ++ ·)

/-- The technique a mnemonic names (R79). -/
def techNamed (cs : List Char) : Option Technique :=
  if cs = "vrc".toList then some .vrc
  else if cs = "lrc".toList then some .lrc
  else if cs = "crc".toList then some .crc
  else if cs = "checksum".toList then some .checksum
  else none

/-- The register a name names (R21, R79). -/
def registerNamed (cs : List Char) : Option HostRegister :=
  if cs = "CMD".toList then some .cmd
  else if cs = "STATUS".toList then some .status
  else if cs = "DATA".toList then some .data
  else if cs = "GEN".toList then some .gen
  else if cs = "ORIG".toList then some .orig
  else if cs = "TX".toList then some .tx
  else if cs = "RX".toList then some .rx
  else none

/-- A byte written `0xNN`. -/
def byteNamed : List Char → Option Byte
  | ['0', 'x', h, l] => do
    let a ← hexDigit h
    let b ← hexDigit l
    pure (BitVec.ofNat 8 (16 * a + b))
  | _ => none

/-- `<mods>`: at most one `inj` and at most one `gen`, in either order (R79): INJ, then GSUP. -/
def modsNamed : List Token → Option (Bool × Bool)
  | [] => some (false, false)
  | [.name a] =>
    if a = "inj".toList then some (true, false)
    else if a = "gen".toList then some (false, true)
    else none
  | [.name a, .comma, .name b] =>
    if a = "inj".toList ∧ b = "gen".toList then some (true, true)
    else if a = "gen".toList ∧ b = "inj".toList then some (true, true)
    else none
  | _ => none

/-- The `, inj` that may end a pseudo-instruction (R80). -/
def injTail : List Token → Option Bool
  | [] => some false
  | [.comma, .name a] => if a = "inj".toList then some true else none
  | _ => none

/-- The line that a name and its operands spell (R79, R80). -/
def lineNamed (op : List Char) (args : List Token) : Option HostLine :=
  if op = "wr".toList then
    match args with
    | [.name r, .comma, .str syms] =>
      match registerNamed r with
      | some .data => some (.wrData syms)
      | some .gen => some (.wrGen syms)
      | _ => none
    | _ => none
  else if op = "cmd".toList then
    match args with
    | [.name b] => (byteNamed b).map .cmd
    | _ => none
  else if op = "rd".toList then
    match args with
    | [.name r] => (registerNamed r).map .rd
    | _ => none
  else if op = "run".toList then
    match args with
    | .name t :: .str d :: rest => do
      let tech ← techNamed t
      let inj ← injTail rest
      pure (.run tech d inj)
    | _ => none
  else if op = "runcrc".toList then
    match args with
    | .str d :: .comma :: .str g :: rest => (injTail rest).map fun inj => .runcrc d g inj
    | _ => none
  else do
    let tech ← techNamed op
    let (inj, gsup) ← modsNamed args
    pure (.command tech inj gsup)

/-- A line of text: none if it is no line of the syntax, else the lines it holds (a blank or comment line holds no
access). -/
def parseLine (cs : List Char) : Option (List HostLine) :=
  match lex .gap cs with
  | none => none
  | some [] => some []
  | some (.name op :: args) => (lineNamed op args).map fun l => [l]
  | some (.str _ :: _) => none
  | some (.comma :: _) => none

/-- A program's text, one access a line (R79). -/
def parseProgram : List (List Char) → Option (List HostLine)
  | [] => some []
  | cs :: rest => do
    let l ← parseLine cs
    let ls ← parseProgram rest
    pure (l ++ ls)

end Sys2Proof.Machine
end

