-- ==== Sys2Proof/Safety.lean ====
section
/-! DEFINITION. The terms that claims use: the outcome of a command word as R121 names it, what an instance's
registers always satisfy, and what counts as a good run. -/

namespace Sys2Proof.Machine

/-! ### The outcome of a command -/

/-- The outcome of an instruction on an instance's operands. -/
def runInstr (i : Instr) (e : Engine) : Except Failure CommandResult :=
  match i with
  | .vrc inj gsup => vrcRun inj gsup e
  | .lrc inj gsup => lrcRun inj gsup e
  | .crc inj gsup => crcRun inj gsup e
  | .checksum inj gsup => checksumRun inj gsup e

/-- `execute(v)` of R121, on an instance's operands. -/
def execute (v : Byte) (e : Engine) : Except Failure CommandResult :=
  match decode v with
  | .error f => .error f
  | .ok i => runInstr i e

/-- The INJ flag of an instruction (R72). -/
def instrInj : Instr → Bool
  | .vrc inj _ => inj
  | .lrc inj _ => inj
  | .crc inj _ => inj
  | .checksum inj _ => inj

/-- The failure that R222 and R74 assign to a command word, by the word's own number and the operands; `none` where
the command completes. It does not go through `decode` or `Engine.validate`. -/
def failureOf (v : Byte) (e : Engine) : Option Failure :=
  if 16 ≤ v.toNat then some .reservedCommand
  else if ∃ c ∈ e.data, c ≠ 0x30#8 ∧ c ≠ 0x31#8 then some .invalidAlphabet
  else if (v = 0x0A#8 ∨ v = 0x0E#8) ∧ ∃ c ∈ e.gen, c ≠ 0x30#8 ∧ c ≠ 0x31#8 then some .invalidAlphabet
  else if (v = 0x0A#8 ∨ v = 0x0E#8) ∧ e.gen.length < 2 then some .degenerateGenerator
  else if e.data = [] then some .emptyInput
  else none

/-- The STATUS word of a failure (R77's list of STATUS values, R223). -/
def failureWord : Failure → Byte
  | .invalidAlphabet => 0x12#8
  | .degenerateGenerator => 0x22#8
  | .emptyInput => 0x32#8
  | .lengthMismatch => 0x42#8
  | .reservedCommand => 0x52#8

/-- A string with its leftmost bit flipped: what the channel's one corruption makes of it (R127). -/
def firstFlipped : Bits → Bits
  | [] => []
  | b :: rest => (!b) :: rest

/-- The block width of R123, from the number of data bits. -/
def frameWidth (n : Nat) : Nat := if n ≤ 16 then 4 else 8

/-- The zeros that fill n bits up to a multiple of w (R124). -/
def frameZeros (n w : Nat) : Bits := List.replicate ((w - n % w) % w) false

/-- The generator operand of a CRC command, as a relation on GSUP, the GEN register and the bits (R73, R222). -/
def GeneratorIs (gsup : Bool) (e : Engine) (g : Bits) : Prop :=
  (gsup = true ∧ e.gen = toSymbols g ∧ 2 ≤ g.length) ∨ (gsup = false ∧ g = [true, false, false, true])

/-- The registers after a command that completed with this result (R129). -/
def Engine.withResult (e : Engine) (d tx rx : Bits) (err : Bool) : Engine :=
  { e with orig := some d, tx := some tx, rx := some rx, status := if err then 0x05#8 else 0x01#8 }

/-- The registers after a command that failed (R223). -/
def Engine.withFailure (e : Engine) (f : Failure) : Engine :=
  { e with orig := none, tx := none, rx := none, status := failureWord f }

/-- The state after the host's write of a command word: the input taken, the instance selected, and its registers
replaced. -/
def State.afterAccess (s : State) (k : Nat) (rest : List HostEvent) (e : Engine) : State :=
  { s with sel := k, pending := rest, engines := s.engines.set k e }

/-! ### What always holds -/

/-- An instance's registers agree with each other: R23, R36, R37, R129, R223, R224, R253, with R24's and R25's capacities.

Every STATUS value is one of the seven a run can leave (0x42 is unreachable, R224). ORIG, TX and RX hold a value
exactly while STATE is DONE. IDLE goes with the reset CMD, DONE with a legal CMD, ReservedCommand with a reserved one.
A held result is a whole one: ORIG is not empty, TX is longer than ORIG (R128), and RX is TX with bit 0 flipped
exactly if CMD.INJ is 1 (R28). -/
structure Engine.Inv (p : Params) (e : Engine) : Prop where
  status : e.status ∈ [0x00#8, 0x01#8, 0x05#8, 0x12#8, 0x22#8, 0x32#8, 0x52#8]
  idle : e.status = 0x00#8 → e.cmd = 0x00#8
  reserved : e.status ≠ 0x00#8 → (e.status = 0x52#8 ↔ 16 ≤ e.cmd.toNat)
  held : (e.status = 0x01#8 ∨ e.status = 0x05#8) →
    ∃ d tx rx, e.orig = some d ∧ e.tx = some tx ∧ e.rx = some rx ∧
      d ≠ [] ∧ d.length < tx.length ∧ rx = if cmdInj e.cmd then firstFlipped tx else tx
  notHeld : ¬(e.status = 0x01#8 ∨ e.status = 0x05#8) → e.orig = none ∧ e.tx = none ∧ e.rx = none
  dataFits : Params.fits p.maxDataLen e.data.length = true
  genFits : Params.fits p.maxGenLen e.gen.length = true

/-- The verdict agrees with the command word: an error is reported only where the channel injected one, and every
injected one is reported but by CRC, which has a blind spot (corner cases of R142, R153, R174, R193). -/
structure Engine.VerdictInv (e : Engine) : Prop where
  onlyInjected : e.status = 0x05#8 → cmdInj e.cmd = true
  injectedSeen : e.status = 0x01#8 → cmdInj e.cmd = true → cmdTech e.cmd = 2#2

/-- The block's instances: N_INSTANCES of them, each with `Engine.Inv` (R7, R20). -/
def State.Inv (p : Params) (s : State) : Prop :=
  s.engines.length = p.nInstances ∧ ∀ e ∈ s.engines, e.Inv p

/-- Every instance's verdict agrees with its command word. -/
def State.VerdictInv (s : State) : Prop := ∀ e ∈ s.engines, e.VerdictInv

/-! ### Good runs -/

/-- The machine with these parameters (R40); `core` is the one with `Config.params`. -/
abbrev coreFor (p : Params) : Host.Core :=
  { State := State, Fault := Fault, Refusal := Refusal, step := stepWith p, reset := State.resetFor p }

/-- A ReadUnwritten fault has been recorded (R233). -/
abbrev State.Faulted (s : State) : Prop := s.faults ≠ []

/-- A run of `k` steps ends well: no refused access on the way, and no state that is faulted at the end (R233: "a
faulted state is never a good end of a run"). -/
def GoodRun (p : Params) (k : Nat) (s : State) : Prop := ∃ t, (coreFor p).run k s = .next t ∧ ¬t.Faulted

/-- The waiting input number `j` reads ORIG, TX or RX (`r`) of instance `n` when the run has come to it and that
instance's STATE is not DONE: what R253 tells software not to do. -/
def ReadsWhileNotDone (p : Params) (s : State) (j n : Nat) (r : HostRegister) : Prop :=
  s.pending[j]? = some (.access n (.read r.number)) ∧ 4 ≤ r.number ∧
    ∃ t e, (coreFor p).run j s = .next t ∧ t.engines[n]? = some e ∧ statusState e.status ≠ stateDone

/-- The one duty R253 puts on software: the next input is no read of ORIG, TX or RX of an instance whose STATE is
not DONE. -/
def ReadsOnlyHeld (s : State) : Prop :=
  ∀ k reg rest e, s.pending = .access k (.read reg) :: rest → s.engines[k]? = some e →
    4 ≤ reg → reg ≤ 6 → statusState e.status = stateDone

end Sys2Proof.Machine
end

