-- ==== Sys2Proof/Certificates/Slice0/Obligations.lean ====
section
/-! DEFINITION. The statements for the provers, in the order of the spec's files; OBLIGATIONS.json says what each one
formalises. -/

open Sys2Proof Sys2Proof.Machine

/-! ## Encoding (30_encoding.md) -/

/-- R77: the decoder on all 256 words, by the word's number. -/
def Obligations.DecoderTotalOnAllWords : Prop :=
  (∀ w : Byte, 16 ≤ w.toNat → decode w = .error .reservedCommand) ∧
  ∀ inj gsup : Bool,
    decode (BitVec.ofNat 8 (0 + 4 * inj.toNat + 8 * gsup.toNat)) = .ok (.vrc inj gsup) ∧
    decode (BitVec.ofNat 8 (1 + 4 * inj.toNat + 8 * gsup.toNat)) = .ok (.lrc inj gsup) ∧
    decode (BitVec.ofNat 8 (2 + 4 * inj.toNat + 8 * gsup.toNat)) = .ok (.crc inj gsup) ∧
    decode (BitVec.ofNat 8 (3 + 4 * inj.toNat + 8 * gsup.toNat)) = .ok (.checksum inj gsup)

/-- Words of the opcode map of 30_encoding.md section 4, written out. -/
def Obligations.WrittenOutWordsDecode : Prop :=
  decode 0b00000000#8 = .ok (.vrc false false) ∧ decode 0b00000100#8 = .ok (.vrc true false) ∧
  decode 0b00001001#8 = .ok (.lrc false true) ∧ decode 0b00000101#8 = .ok (.lrc true false) ∧
  decode 0b00001010#8 = .ok (.crc false true) ∧ decode 0b00000110#8 = .ok (.crc true false) ∧
  decode 0b00001111#8 = .ok (.checksum true true) ∧ decode 0b00000011#8 = .ok (.checksum false false) ∧
  decode 0b00010011#8 = .error .reservedCommand ∧ decode 0b10000011#8 = .error .reservedCommand

/-- Decoding an encoded instruction gives it back, and each legal word is the encoding of what it decodes to. -/
def Obligations.DecodeEncodeRoundTrip : Prop :=
  (∀ i : Instr, i.wf = true → decode (encode i) = .ok i) ∧
  ∀ (w : Byte) (i : Instr), decode w = .ok i → encode i = w

/-- R73: what GSUP selects for CRC, and that nothing else reads GSUP or GEN. -/
def Obligations.GsupSelectsTheGenerator : Prop :=
  ∀ (inj gsup : Bool) (e : Engine) (gen : List Symbol),
    runInstr (.vrc inj gsup) { e with gen := gen } = runInstr (.vrc inj false) e ∧
    runInstr (.lrc inj gsup) { e with gen := gen } = runInstr (.lrc inj false) e ∧
    runInstr (.checksum inj gsup) { e with gen := gen } = runInstr (.checksum inj false) e ∧
    runInstr (.crc inj false) { e with gen := gen } = runInstr (.crc inj false) e ∧
    runInstr (.crc inj false) e = runInstr (.crc inj true) { e with gen := [0x31#8, 0x30#8, 0x30#8, 0x31#8] } ∧
    (∀ g : Bits, e.gen = toSymbols g → e.generatorOperand true = .ok g) ∧
    e.generatorOperand false = .ok [true, false, false, true]

/-- R75: which symbol strings convert, and to what. -/
def Obligations.SymbolsConvertToBits : Prop :=
  ∀ syms : List Symbol,
    (∀ d : Bits, bits syms = .ok d ↔ syms = d.map fun b => if b then 0x31#8 else 0x30#8) ∧
    ((∃ c ∈ syms, c ≠ 0x30#8 ∧ c ≠ 0x31#8) ↔ bits syms = .error .invalidAlphabet)

/-- R80: the pseudo-instructions and their expansions. -/
def Obligations.PseudoInstructionsExpand : Prop :=
  ∀ (t : Technique) (d g : List Symbol),
    HostLine.expand (.run t d false) =
      HostLine.expand (.wrData d) ++ HostLine.expand (.command t false false) ∧
    HostLine.expand (.run t d true) =
      HostLine.expand (.wrData d) ++ HostLine.expand (.command t true false) ∧
    HostLine.expand (.runcrc d g false) =
      HostLine.expand (.wrData d) ++ HostLine.expand (.wrGen g) ++ HostLine.expand (.command .crc false true) ∧
    HostLine.expand (.runcrc d g true) =
      HostLine.expand (.wrData d) ++ HostLine.expand (.wrGen g) ++ HostLine.expand (.command .crc true true)

/-! ## Steps: a CMD write runs the decoded command (41_invocation.md) -/

/-- A step whose input is a write of a legal command word is `exec` of the decoded instruction, once CMD holds the
word. -/
def Obligations.StepRunsDecodedCommand : Prop :=
  ∀ (p : Params) (s : State) (k : Nat) (v : Byte) (rest : List HostEvent) (e : Engine) (i : Instr),
    s.pending = .access k (.write 0 (.word v)) :: rest → s.engines[k]? = some e → decode v = .ok i →
    stepWith p s = exec i (s.afterAccess k rest { e with cmd := v }) ∧
    step s = exec i (s.afterAccess k rest { e with cmd := v })

/-- The model's placing of a command word (log 2): the very next step runs it on the selected instance. -/
def Obligations.PlacedWordRunsNext : Prop :=
  ∀ (s : State) (w : Nat) (e : Engine) (i : Instr),
    s.selected = some e → w < 256 → decodeTableWord 8 w = some i →
    step (s.withFetchWord 8 w) = exec i (s.setSelected { e with cmd := BitVec.ofNat 8 w })

/-- R120: the whole step of a CMD write, whatever the instance held before. -/
def Obligations.CmdWriteRunsOneCommand : Prop :=
  ∀ (p : Params) (s : State) (k : Nat) (v : Byte) (rest : List HostEvent) (e : Engine),
    s.pending = .access k (.write 0 (.word v)) :: rest → s.engines[k]? = some e →
    (∀ r, execute v e = .ok r →
      stepWith p s = .next (s.afterAccess k rest ({ e with cmd := v }.withResult r.orig r.tx r.rx r.err))) ∧
    (∀ f, execute v e = .error f →
      stepWith p s = .next (s.afterAccess k rest ({ e with cmd := v }.withFailure f)))

/-- R123, R124: the block width, and the pad amount as the least fill to a multiple of it. -/
def Obligations.FramingArithmetic : Prop :=
  (∀ n, blockWidth n = if n ≤ 16 then 4 else 8) ∧
  ∀ n w, 0 < w →
    padAmount n w < w ∧ (n + padAmount n w) % w = 0 ∧
    (padAmount n w = if n % w = 0 then 0 else w - n % w) ∧
    ∀ m, n ≤ m → m % w = 0 → n + padAmount n w ≤ m

/-- R130: the blocks of a whole number of blocks. -/
def Obligations.PartitionSplitsInOrder : Prop :=
  ∀ (s : Bits) (w : Nat), 0 < w → s.length % w = 0 →
    (partition s w).length = s.length / w ∧ (∀ b ∈ partition s w, b.length = w) ∧ (partition s w).flatten = s

/-- R127: the channel's only corruption, in every command that completes. -/
def Obligations.ChannelFlipsOnlyBitZero : Prop :=
  ∀ (v : Byte) (e : Engine) (r : CommandResult), execute v e = .ok r →
    2 ≤ r.tx.length ∧ r.rx = if v.getLsbD 2 then firstFlipped r.tx else r.tx

/-- R128: the parts of the transmitted string. -/
def Obligations.TransmittedIsDataThenCheckField : Prop :=
  ∀ (i : Instr) (e : Engine) (r : CommandResult), runInstr i e = .ok r →
    e.data = toSymbols r.orig ∧ ∃ processed red : Bits, r.tx = processed ++ red ∧
      match i with
      | .vrc _ _ => processed = r.orig ∧ red.length = 1
      | .lrc _ _ =>
        processed = r.orig ++ frameZeros r.orig.length (frameWidth r.orig.length) ∧
        red.length = frameWidth r.orig.length
      | .crc _ gsup => processed = r.orig ∧ red.length + 1 = if gsup then e.gen.length else 4
      | .checksum _ _ =>
        processed = frameZeros r.orig.length (frameWidth r.orig.length) ++ r.orig ∧
        red.length = frameWidth r.orig.length

/-- R131: what the outcome of a command word depends on. -/
def Obligations.OutcomeDependsOnlyOnOperands : Prop :=
  ∀ (v : Byte) (e e' : Engine), e.data = e'.data → (v = 0x0A#8 ∨ v = 0x0E#8 → e.gen = e'.gen) →
    execute v e = execute v e'

/-! ## BitArithmetic (40_bitarithmetic.md) -/

/-- R100. -/
def Obligations.XorBitByBit : Prop :=
  ∀ a b : Bits,
    (a.length ≠ b.length → bitXor a b = .error .lengthMismatch) ∧
    (a.length = b.length → ∃ r, bitXor a b = .ok r ∧ r.length = a.length ∧
      ∀ i, i < a.length → bitAt r i = (bitAt a i != bitAt b i)) ∧
    bitXor a a = .ok (rep a.length false) ∧
    bitXor a (rep a.length false) = .ok a

/-- R101, with its derived value. -/
def Obligations.OnesComplementFlipsEveryBit : Prop :=
  ∀ s : Bits,
    (onesComplement s).length = s.length ∧
    (∀ i, i < s.length → bitAt (onesComplement s) i = !bitAt s i) ∧
    onesComplement (onesComplement s) = s ∧
    val (onesComplement s) = 2 ^ s.length - 1 - val s

/-- R102: the parity bit counts the ones, and the even-parity convention. -/
def Obligations.ParityCountsOnes : Prop :=
  ∀ a b : Bits,
    (parity a = true ↔ count1 a % 2 = 1) ∧ parity (a ++ [parity a]) = false ∧
    parity (a ++ b) = (parity a != parity b) ∧ parity [] = false

/-- R103: the adder's law, and its one failure. -/
def Obligations.AdderIsUnsignedAddition : Prop :=
  ∀ a b : Bits,
    (a.length ≠ b.length → fixedWidthIncrement a b = .error .lengthMismatch) ∧
    (a.length = b.length → ∃ s c, fixedWidthIncrement a b = .ok (s, c) ∧ s.length = a.length ∧
      val s + c.toNat * 2 ^ a.length = val a + val b ∧ (c = true ↔ 2 ^ a.length ≤ val a + val b))

/-- R104: the laws of end-around-carry addition, and its one failure. -/
def Obligations.EndAroundCarryLaws : Prop :=
  (∀ a b : Bits, a.length ≠ b.length → eacAdd a b = .error .lengthMismatch) ∧
  ∀ a b : Bits, a.length = b.length → 1 ≤ a.length →
    (∀ s, fixedWidthIncrement a b = .ok (s, true) →
      ∃ s', fixedWidthIncrement s (binW a.length 1) = .ok (s', false) ∧ eacAdd a b = .ok s') ∧
    (∀ s, fixedWidthIncrement a b = .ok (s, false) → eacAdd a b = .ok s) ∧
    (∃ r, eacAdd a b = .ok r ∧ r.length = a.length ∧
      val r ≤ 2 ^ a.length - 1 ∧ val r % (2 ^ a.length - 1) = (val a + val b) % (2 ^ a.length - 1) ∧
      (val r = 0 ↔ val a = 0 ∧ val b = 0)) ∧
    eacAdd a b = eacAdd b a ∧ eacAdd (rep a.length false) b = .ok b ∧
    eacAdd a (onesComplement a) = .ok (rep a.length true)

/-- The model's fuel for R104's loop is enough (log 10): from any sum of the adder, one turn of the loop ends it, and
more fuel changes nothing. -/
def Obligations.WrapLoopNeedsNoMoreFuel : Prop :=
  ∀ (a b s : Bits) (c : Bool), fixedWidthIncrement a b = .ok (s, c) →
    ∀ fuel, wrapCarry (fuel + 1) (s, c) = wrapCarry 1 (s, c)

/-! ## The four commands (42_vrc.md to 45_checksum.md) -/

/-- VRC completes on every DATA of one or more bit symbols, with R140's transmitted string and, with the single-flip
channel, the verdict INJ. -/
def Obligations.VrcCompletes : Prop :=
  ∀ (inj gsup : Bool) (s : State) (e : Engine) (d : Bits),
    s.selected = some e → e.data = toSymbols d → d ≠ [] →
    ∃ tx : Bits, tx = d ++ [decide (count1 d % 2 = 1)] ∧ tx.length = d.length + 1 ∧ count1 tx % 2 = 0 ∧
      exec (.vrc inj gsup) s =
        .next (s.setSelected (e.withResult d tx (if inj then firstFlipped tx else tx) inj))

/-- LRC completes on every DATA of one or more bit symbols, with R151's transmitted string: bit c of the check block
is the parity of column c of the padded blocks, to which the pad adds nothing; the verdict is INJ. -/
def Obligations.LrcCompletes : Prop :=
  ∀ (inj gsup : Bool) (s : State) (e : Engine) (d : Bits),
    s.selected = some e → e.data = toSymbols d → d ≠ [] →
    ∃ (w : Nat) (p lrc tx : Bits), w = frameWidth d.length ∧ p = d ++ frameZeros d.length w ∧ lrc.length = w ∧
      (∀ c, c < w →
        bitAt lrc c = decide (((List.range (p.length / w)).countP fun j => bitAt p (j * w + c)) % 2 = 1) ∧
        bitAt lrc c = decide (((List.range d.length).countP fun i => bitAt d i && i % w == c) % 2 = 1)) ∧
      tx = p ++ lrc ∧
      exec (.lrc inj gsup) s =
        .next (s.setSelected (e.withResult d tx (if inj then firstFlipped tx else tx) inj))

/-- CRC completes on every DATA of one or more bit symbols and every generator of two or more, with R172's transmitted
string. The injected flip is detected exactly if the generator has a 1 after its first bit (corner cases of R174). -/
def Obligations.CrcCompletes : Prop :=
  ∀ (inj gsup : Bool) (s : State) (e : Engine) (d g : Bits),
    s.selected = some e → e.data = toSymbols d → d ≠ [] → GeneratorIs gsup e g →
    ∃ rem tx : Bits, mod2div (d ++ List.replicate (g.length - 1) false) g = .ok rem ∧
      rem.length = g.length - 1 ∧ tx = d ++ rem ∧
      exec (.crc inj gsup) s =
        .next (s.setSelected (e.withResult d tx (if inj then firstFlipped tx else tx)
          (inj && g.tail.contains true)))

/-- CHECKSUM completes on every DATA of one or more bit symbols, with R191's transmitted string: the check field is
the one's complement of the end-around-carry sum of the left-padded blocks, so that the blocks and the field sum to 0
modulo 2^w − 1, and it is all ones exactly for zero data; the verdict is INJ (corner cases of R193). -/
def Obligations.ChecksumCompletes : Prop :=
  ∀ (inj gsup : Bool) (s : State) (e : Engine) (d : Bits),
    s.selected = some e → e.data = toSymbols d → d ≠ [] →
    ∃ (w : Nat) (p sum ck tx : Bits), w = frameWidth d.length ∧ p = frameZeros d.length w ++ d ∧
      csumFold (partition p w) = .ok sum ∧ sum.length = w ∧ ck = onesComplement sum ∧
      (val ck + ((partition p w).map val).sum) % (2 ^ w - 1) = 0 ∧ (val ck = 2 ^ w - 1 ↔ val d = 0) ∧
      tx = p ++ ck ∧
      exec (.checksum inj gsup) s =
        .next (s.setSelected (e.withResult d tx (if inj then firstFlipped tx else tx) inj))

/-- R150: lane c is the parity of bit c of every block, and the lanes together are the xor of the blocks. -/
def Obligations.ColumnParityIsLaneWise : Prop :=
  ∀ (blocks : List Bits) (w : Nat), (∀ b ∈ blocks, b.length = w) →
    (colParity blocks w).length = w ∧
    (∀ c, c < w → bitAt (colParity blocks w) c = parity (blocks.map fun b => bitAt b c)) ∧
    blocks.foldrM bitXor (rep w false) = .ok (colParity blocks w)

/-- R190: the running sum's value modulo 2^w − 1, the start that does not matter, and the order that does not
either. -/
def Obligations.ChecksumFoldLaws : Prop :=
  ∀ (blocks : List Bits) (w : Nat), 1 ≤ w → blocks ≠ [] → (∀ b ∈ blocks, b.length = w) →
    (∃ sum, csumFold blocks = .ok sum ∧ sum.length = w ∧
      val sum % (2 ^ w - 1) = (blocks.map val).sum % (2 ^ w - 1) ∧ (val sum = 0 ↔ ∀ b ∈ blocks, val b = 0)) ∧
    csumFold (rep w false :: blocks) = csumFold blocks ∧
    (∀ b sum, blocks.length = 1 → blocks.head? = some b → csumFold blocks = .ok sum → sum = b) ∧
    (∀ b sum sum', csumFold blocks = .ok sum → b.length = w → eacAdd sum b = .ok sum' →
      csumFold (blocks ++ [b]) = .ok sum') ∧
    ∀ blocks', blocks.Perm blocks' → csumFold blocks' = csumFold blocks

/-- A bit string read as a polynomial over GF(2): bit i of an m-bit string is the coefficient of x^(m−1−i) (R51). -/
noncomputable def polyOf (s : Bits) : Polynomial (ZMod 2) :=
  ∑ i ∈ Finset.range s.length, if bitAt s i then Polynomial.X ^ (s.length - 1 - i) else 0

/-- R171: the working-register procedure computes the remainder by x^(l−1) + (the polynomial of g[1..l)); g[0] has no
part in it; and it is linear. -/
def Obligations.DivisionIsPolynomialRemainder : Prop :=
  ∀ (s g : Bits), 2 ≤ g.length → g.length ≤ s.length →
    (∃ rem, mod2div s g = .ok rem ∧ rem.length = g.length - 1 ∧
      polyOf rem = polyOf s %ₘ (Polynomial.X ^ (g.length - 1) + polyOf g.tail)) ∧
    (∀ b, mod2div s (b :: g.tail) = mod2div s g) ∧
    ∀ t st, bitXor s t = .ok st → ∃ rs rt rst,
      mod2div s g = .ok rs ∧ mod2div t g = .ok rt ∧ mod2div st g = .ok rst ∧ bitXor rs rt = .ok rst

/-- The all-zero generator (R170's corner case): the remainder is the last l − 1 bits. -/
def Obligations.AllZeroGeneratorPassesThrough : Prop :=
  ∀ (s : Bits) (l : Nat), 2 ≤ l → l ≤ s.length →
    mod2div s (rep l false) = .ok (s.drop (s.length - l + 1))

/-! ## Failures (60_exceptions.md) -/

/-- R74, R220, R222: the first applicable failure, in the fixed order, is what a CMD write commits; a command to which
none applies completes. -/
def Obligations.CmdWriteCommitsFirstFailure : Prop :=
  ∀ (p : Params) (s : State) (k : Nat) (v : Byte) (rest : List HostEvent) (e : Engine),
    s.pending = .access k (.write 0 (.word v)) :: rest → s.engines[k]? = some e →
    (∀ f, failureOf v e = some f →
      stepWith p s = .next (s.afterAccess k rest ({ e with cmd := v }.withFailure f))) ∧
    (failureOf v e = none → ∃ d tx rx err, e.data = toSymbols d ∧
      stepWith p s = .next (s.afterAccess k rest ({ e with cmd := v }.withResult d tx rx err)))

/-- R224: no command word and no operands reach LengthMismatch, which the primitives keep. -/
def Obligations.LengthMismatchUnreachable : Prop :=
  (∀ (v : Byte) (e : Engine), execute v e ≠ .error .lengthMismatch) ∧
  (∀ a b : Bits, a.length ≠ b.length →
    bitXor a b = .error .lengthMismatch ∧ fixedWidthIncrement a b = .error .lengthMismatch) ∧
  ∀ (s : State) (e : Engine), s.selected = some e →
    s.takeFailure .lengthMismatch =
      .next (s.setSelected { e with status := 0x42#8, orig := none, tx := none, rx := none })

/-- R23, R220: the fields of STATUS after a command, the code of each failure, and no bit outside the fields. -/
def Obligations.StatusWordFields : Prop :=
  (∀ err : Bool, statusState (doneStatus err) = 1#2 ∧ statusErrdet (doneStatus err) = err ∧
    statusFault (doneStatus err) = 0#3 ∧ (doneStatus err).getLsbD 3 = false ∧ (doneStatus err).getLsbD 7 = false) ∧
  (∀ f : Failure, statusState (failedStatus f) = 2#2 ∧ statusErrdet (failedStatus f) = false ∧
    (failedStatus f).getLsbD 3 = false ∧ (failedStatus f).getLsbD 7 = false) ∧
  statusFault (failedStatus .invalidAlphabet) = 1#3 ∧ statusFault (failedStatus .degenerateGenerator) = 2#3 ∧
  statusFault (failedStatus .emptyInput) = 3#3 ∧ statusFault (failedStatus .lengthMismatch) = 4#3 ∧
  statusFault (failedStatus .reservedCommand) = 5#3

/-- The four commands in an instance's operands that R222 fails: the failure is a next state, never a stop. -/
def Obligations.FailedCommandTakesFailure : Prop :=
  ∀ (i : Instr) (s : State) (e : Engine) (f : Failure), s.selected = some e → failureOf (encode i) e = some f →
    exec i s = .next (s.setSelected (e.withFailure f))

/-! ## Frames -/

/-- VRC, LRC, CRC and CHECKSUM write STATUS, ORIG, TX and RX of the selected instance and nothing else, completed or
failed; a recorded fault stays (R233). That the fields `sel`, `pending` and `received` stay is about the model's own fields (logs 2, 4, 5), and that
exec is refused where `sel` names no instance is the model's DESIGN CHOICE (log 5), no rule of the spec. -/
def Obligations.CommandFrame : Prop :=
  ∀ (i : Instr) (s : State),
    (∀ t, exec i s = .next t →
      t.sel = s.sel ∧ t.pending = s.pending ∧ t.received = s.received ∧ t.faults = s.faults ∧
      t.engines.length = s.engines.length ∧
      (∀ j, j ≠ s.sel → t.engines[j]? = s.engines[j]?) ∧
      ∀ e, s.selected = some e → ∃ e', t.selected = some e' ∧
        e'.cmd = e.cmd ∧ e'.data = e.data ∧ e'.gen = e.gen) ∧
    (s.selected = none → exec i s = .refused (.noSuchInstance s.sel))

/-- An access to one instance leaves every other instance's registers (R20, R232). -/
def Obligations.OtherInstancesUntouched : Prop :=
  ∀ (p : Params) (s t : State) (k : Nat) (op : HostOp) (rest : List HostEvent),
    s.pending = .access k op :: rest → stepWith p s = .next t →
    t.engines.length = s.engines.length ∧ ∀ j, j ≠ k → t.engines[j]? = s.engines[j]?

/-- Accesses to two instances can be taken in either order (R58, R131): neither instance shows which came first. -/
def Obligations.InstancesDoNotInterfere : Prop :=
  ∀ (p : Params) (s u u' t : State) (j k : Nat) (a b : HostOp), j ≠ k →
    takeEvent p (.access j a) s = .next u → takeEvent p (.access k b) u = .next t →
    takeEvent p (.access k b) s = .next u' →
    ∃ t', takeEvent p (.access j a) u' = .next t' ∧ t'.engines = t.engines

/-! ## The host interface (10_state.md, 20_memory.md) -/

/-- R54, R76: a read returns the whole register and changes no register. -/
def Obligations.ReadReturnsWholeRegister : Prop :=
  ∀ (p : Params) (s : State) (k reg : Nat) (rest : List HostEvent) (e : Engine) (v : RegValue),
    s.pending = .access k (.read reg) :: rest → s.engines[k]? = some e →
    (reg = 0 ∧ v = .word e.cmd ∨ reg = 1 ∧ v = .word e.status ∨
      reg = 2 ∧ v = .symbols e.data ∨ reg = 3 ∧ v = .symbols e.gen ∨
      ∃ b : Bits, v = .symbols (b.map fun x => if x then 0x31#8 else 0x30#8) ∧
        (reg = 4 ∧ e.orig = some b ∨ reg = 5 ∧ e.tx = some b ∨ reg = 6 ∧ e.rx = some b)) →
    stepWith p s = .next { s with sel := k, pending := rest, received := s.received ++ [v] }

/-- R37: a read of ORIG, TX or RX that holds no value records the fault ReadUnwritten, returns no value and changes no
register; after reset and after a failure they hold none. That the step goes on with the fault recorded is the model's
reading of R233 (log 6). -/
def Obligations.ReadOfNoValueFaults : Prop :=
  (∀ (p : Params) (s : State) (k reg : Nat) (rest : List HostEvent) (e : Engine),
    s.pending = .access k (.read reg) :: rest → s.engines[k]? = some e →
    (reg = 4 → e.orig = none →
      stepWith p s = .next { s with sel := k, pending := rest, faults := s.faults ++ [⟨k, .orig⟩] }) ∧
    (reg = 5 → e.tx = none →
      stepWith p s = .next { s with sel := k, pending := rest, faults := s.faults ++ [⟨k, .tx⟩] }) ∧
    (reg = 6 → e.rx = none →
      stepWith p s = .next { s with sel := k, pending := rest, faults := s.faults ++ [⟨k, .rx⟩] })) ∧
  (∀ (p : Params), ∀ e ∈ (State.resetFor p).engines, e.orig = none ∧ e.tx = none ∧ e.rx = none) ∧
  ∀ (e : Engine) (f : Failure),
    (e.commitFailure f).orig = none ∧ (e.commitFailure f).tx = none ∧ (e.commitFailure f).rx = none

/-- R233's refused accesses, by cause; and no access that the syntax admits is refused. -/
def Obligations.RefusedAccesses : Prop :=
  ∀ (p : Params) (s : State) (k : Nat) (op : HostOp) (rest : List HostEvent) (e : Engine),
    s.pending = .access k op :: rest → s.engines[k]? = some e →
    (∀ reg, 7 ≤ reg → (op = .read reg ∨ ∃ v, op = .write reg v) →
      stepWith p s = .refused (.unassignedRegister reg)) ∧
    (∀ v, op = .write 1 v → stepWith p s = .refused (.readOnlyRegister .status)) ∧
    (∀ v, op = .write 4 v → stepWith p s = .refused (.readOnlyRegister .orig)) ∧
    (∀ v, op = .write 5 v → stepWith p s = .refused (.readOnlyRegister .tx)) ∧
    (∀ v, op = .write 6 v → stepWith p s = .refused (.readOnlyRegister .rx)) ∧
    (∀ syms c, op = .write 2 (.symbols syms) → p.maxDataLen = some c → c < syms.length →
      stepWith p s = .refused (.overCapacity .data)) ∧
    (∀ syms c, op = .write 3 (.symbols syms) → p.maxGenLen = some c → c < syms.length →
      stepWith p s = .refused (.overCapacity .gen)) ∧
    (op.wf p = true → ∀ r, stepWith p s ≠ .refused r)

/-- R24, R25, R41: a write of DATA or GEN that fits stores the string, and the results of earlier commands stay. -/
def Obligations.OperandWriteStoresString : Prop :=
  ∀ (p : Params) (s : State) (k : Nat) (syms : List Symbol) (rest : List HostEvent) (e : Engine),
    s.engines[k]? = some e →
    (s.pending = .access k (.write 2 (.symbols syms)) :: rest → (∀ c, p.maxDataLen = some c → syms.length ≤ c) →
      stepWith p s = .next (s.afterAccess k rest { e with data := syms })) ∧
    (s.pending = .access k (.write 3 (.symbols syms)) :: rest → (∀ c, p.maxGenLen = some c → syms.length ≤ c) →
      stepWith p s = .next (s.afterAccess k rest { e with gen := syms }))

/-- A second write of the same command word leaves the registers that the first one left (R56). -/
def Obligations.RepeatedCommandLeavesSameRegisters : Prop :=
  ∀ (p : Params) (s t u : State) (k : Nat) (v : Byte),
    takeEvent p (.access k (.write 0 (.word v))) s = .next t →
    takeEvent p (.access k (.write 0 (.word v))) t = .next u → u = t

/-- An access that names no instance, or moves the wrong kind of value, is refused: the model's reading of R57 and
R54 (log 7). -/
def Obligations.AccessOutsideInterfaceRefused : Prop :=
  ∀ (p : Params) (s : State) (k : Nat) (op : HostOp) (rest : List HostEvent),
    s.pending = .access k op :: rest →
    (s.engines.length ≤ k → stepWith p s = .refused (.noSuchInstance k)) ∧
    (k < s.engines.length →
      (∀ syms, op = .write 0 (.symbols syms) → stepWith p s = .refused (.wrongKind .cmd)) ∧
      (∀ w, op = .write 2 (.word w) → stepWith p s = .refused (.wrongKind .data)) ∧
      (∀ w, op = .write 3 (.word w) → stepWith p s = .refused (.wrongKind .gen)))

/-! ## Reset (70_reset_and_hazards.md) -/

/-- The reset values of R36 in every register of every instance, after reset and after a reset of a running block
(R250). That a reset of a running block keeps the recorded faults is R233's "no later step clears it" (log 6). That it
leaves the waiting inputs, the returned values and the selected index is the
model's reading, DEDUCED (log 8). -/
def Obligations.ResetSetsEveryRegister : Prop :=
  (∀ p : Params, (State.resetFor p).engines =
    List.replicate p.nInstances
      { cmd := 0x00#8, status := 0x00#8, data := [], gen := [], orig := none, tx := none, rx := none }) ∧
  ∀ (p : Params) (s : State) (rest : List HostEvent), s.pending = .reset :: rest →
    stepWith p s = .next { s with
      pending := rest
      engines := List.replicate s.engines.length
        { cmd := 0x00#8, status := 0x00#8, data := [], gen := [], orig := none, tx := none, rx := none } }

/-- With no input waiting the block keeps its state (the model's choice, log 3, from R235). -/
def Obligations.IdleStepKeepsState : Prop :=
  ∀ (p : Params) (s : State), s.pending = [] → stepWith p s = .next s

/-- R7's bounds hold of the machine's open parameters. -/
def Obligations.OpenParametersWithinBounds : Prop := Config.params.wf = true

/-! ## Invariants -/

/-- The registers of every instance agree with each other after reset. -/
def Obligations.InvariantHoldsAtReset : Prop :=
  (∀ p : Params, State.Inv p (State.resetFor p)) ∧ State.Inv Config.params State.reset

/-- Every step keeps every instance's registers in agreement: a legal STATUS (0x42 never), results held exactly while
DONE, STATUS and CMD of the same command, RX one flip from TX, operands within capacity. -/
def Obligations.EveryStepKeepsInvariant : Prop :=
  (∀ (p : Params) (s t : State), State.Inv p s → stepWith p s = .next t → State.Inv p t) ∧
  ∀ s t : State, State.Inv Config.params s → step s = .next t → State.Inv Config.params t

/-- The verdicts agree with the command words after reset. -/
def Obligations.VerdictInvariantHoldsAtReset : Prop := ∀ p : Params, State.VerdictInv (State.resetFor p)

/-- Every step keeps the verdicts in agreement with the command words: ERRDET is 1 only after an injection, and every
injection is reported by VRC, LRC and CHECKSUM. -/
def Obligations.EveryStepKeepsVerdictInvariant : Prop :=
  ∀ (p : Params) (s t : State), State.VerdictInv s → stepWith p s = .next t → State.VerdictInv t

/-- R253: in states that meet the invariant, a step records a fault exactly if it takes a read of ORIG, TX or RX while
STATE is not DONE. -/
def Obligations.FaultsExactlyOnReadsWhileNotDone : Prop :=
  ∀ (p : Params) (s : State), State.Inv p s → 
    ((∃ t, stepWith p s = .next t ∧ t.faults ≠ s.faults) ↔ ¬ReadsOnlyHeld s)

/-- R233, R235 and R253 over whole runs, from every state that meets the invariant and is not faulted, on inputs that
the interface admits: no run stops before its `k` inputs are taken; it ends well exactly if it came to no read of ORIG,
TX or RX while STATE is not DONE; and the faults at the end are exactly those of such reads, each with its instance
and register. That the machine goes on after the fault is log 6. -/
def Obligations.RunsFaultExactlyAtReadsWhileNotDone : Prop :=
  core = coreFor Config.params ∧
  ∀ (p : Params) (s : State), State.Inv p s → ¬s.Faulted → (∀ ev ∈ s.pending, ev.wf p = true) → ∀ k : Nat,
    (∃ t, (coreFor p).run k s = .next t ∧ t.pending = s.pending.drop k ∧
      ∀ x : ReadUnwritten, x ∈ t.faults ↔ ∃ j < k, ReadsWhileNotDone p s j x.engine x.reg) ∧
    (GoodRun p k s ↔ ¬∃ j < k, ∃ n r, ReadsWhileNotDone p s j n r)

/-- R233: "the fault stays recorded: no later step clears it, and a faulted state is never a good end of a run". Over
runs of any length on any inputs, a reset among them, the faults recorded stay, in place; so no run from a faulted
state ends well. -/
def Obligations.RecordedFaultsStay : Prop :=
  ∀ (p : Params) (s : State) (k : Nat),
    (∀ t, (coreFor p).run k s = .next t → s.faults <+: t.faults) ∧ (s.Faulted → ¬GoodRun p k s)
end

