-- ==== Sys2Proof/Laws/Operands.lean ====
section
/-! SUPPORT. Bit strings, symbol conversion and block framing: lengths, and what converts. -/

namespace Sys2Proof.Machine

/-! ### Lengths -/

@[simp] theorem rep_length (k : Nat) (v : Bool) : (rep k v).length = k := by simp [rep]

@[simp] theorem rep_zero (v : Bool) : rep 0 v = [] := rfl

@[simp] theorem rep_succ (k : Nat) (v : Bool) : rep (k + 1) v = v :: rep k v := rfl

@[simp] theorem binW_length (w v : Nat) : (binW w v).length = w := by
  induction w with
  | zero => rfl
  | succ w ih => simp [binW, ih]

@[simp] theorem onesComplement_length (s : Bits) : (onesComplement s).length = s.length := by
  simp [onesComplement]

/-- `bitAt` steps through the string. -/
@[simp] theorem bitAt_cons_zero (b : Bool) (s : Bits) : bitAt (b :: s) 0 = b := rfl

@[simp] theorem bitAt_cons_succ (b : Bool) (s : Bits) (i : Nat) : bitAt (b :: s) (i + 1) = bitAt s i := by
  simp [bitAt]

theorem bitAt_append_left (s t : Bits) (i : Nat) (h : i < s.length) : bitAt (s ++ t) i = bitAt s i := by
  simp [bitAt, List.getElem?_append_left h]

theorem bitAt_append_right (s t : Bits) (i : Nat) : bitAt (s ++ t) (s.length + i) = bitAt t i := by
  simp [bitAt, List.getElem?_append_right]

theorem val_lt (s : Bits) : val s < 2 ^ s.length := by
  induction s with
  | nil => simp [val]
  | cons b s ih => cases b <;> simp [val, Nat.pow_succ] <;> omega

/-! ### Symbols and bits -/

@[simp] theorem toSymbols_nil : toSymbols [] = [] := rfl

@[simp] theorem toSymbols_cons (b : Bool) (d : Bits) : toSymbols (b :: d) = bitSymbol b :: toSymbols d := rfl

@[simp] theorem toSymbols_length (d : Bits) : (toSymbols d).length = d.length := by simp [toSymbols]

@[simp] theorem isBitSymbol_bitSymbol (b : Bool) : isBitSymbol (bitSymbol b) = true := by cases b <;> decide

@[simp] theorem toSymbols_all (d : Bits) : (toSymbols d).all isBitSymbol = true := by
  simp [toSymbols]

/-- The string the host reads converts back. -/
@[simp] theorem bits_toSymbols (d : Bits) : bits (toSymbols d) = .ok d := by
  induction d with
  | nil => rfl
  | cons b d ih =>
    have hb : symbolBit (bitSymbol b) = .ok b := by cases b <;> decide
    simp only [toSymbols_cons, bits, hb, ih]
    rfl

/-- A string of bit symbols is the symbol string of some bits. -/
theorem exists_toSymbols {syms : List Symbol} (h : syms.all isBitSymbol = true) : ∃ d, syms = toSymbols d := by
  induction syms with
  | nil => exact ⟨[], rfl⟩
  | cons c syms ih =>
    simp only [List.all_cons, Bool.and_eq_true] at h
    obtain ⟨d, rfl⟩ := ih h.2
    have hc : c = symbol0 ∨ c = symbol1 := by simpa [isBitSymbol] using h.1
    rcases hc with rfl | rfl
    · exact ⟨false :: d, rfl⟩
    · exact ⟨true :: d, rfl⟩

/-! ### Framing -/

theorem blockWidth_pos (n : Nat) : 0 < blockWidth n := by
  unfold blockWidth; split <;> decide

theorem blockWidth_eq (n : Nat) : blockWidth n = frameWidth n := rfl

/-- Padding fills up to a multiple of the width (R124). -/
theorem padAmount_mod {w : Nat} (n : Nat) (h : 0 < w) : (n + padAmount n w) % w = 0 := by
  unfold padAmount
  split
  · simpa
  · have := Nat.mod_lt n h
    rw [Nat.add_mod, Nat.mod_eq_of_lt (show w - n % w < w by omega), Nat.add_sub_cancel' (by omega), Nat.mod_self]

theorem padRight_length_mod {w : Nat} (d : Bits) (h : 0 < w) : (padRight d w).length % w = 0 := by
  simpa [padRight] using padAmount_mod d.length h

theorem padLeft_length_mod {w : Nat} (d : Bits) (h : 0 < w) : (padLeft d w).length % w = 0 := by
  simpa [padLeft, Nat.add_comm] using padAmount_mod d.length h

/-- Blocks are framed whole: each block has the block width. -/
theorem partition_block_length {s : Bits} {w : Nat} {b : Bits} (hb : b ∈ partition s w) : b.length = w := by
  simp only [partition, List.mem_map, List.mem_range] at hb
  obtain ⟨j, hj, rfl⟩ := hb
  have h1 : (j + 1) * w ≤ s.length / w * w := Nat.mul_le_mul_right w hj
  have h2 : s.length / w * w ≤ s.length := Nat.div_mul_le_self _ _
  have h3 : (j + 1) * w = j * w + w := by ring
  simp only [slice, List.length_take, List.length_drop]
  omega

@[simp] theorem partition_length (s : Bits) (w : Nat) : (partition s w).length = s.length / w := by
  simp [partition]

/-- The first block of a string that starts with one. -/
theorem partition_append_block {b s : Bits} {w : Nat} (hw : 0 < w) (hb : b.length = w) :
    partition (b ++ s) w = b :: partition s w := by
  have hk : (b ++ s).length / w = s.length / w + 1 := by
    rw [List.length_append, hb, Nat.add_comm, Nat.add_div_right _ hw]
  simp only [partition, hk, List.range_succ_eq_map, List.map_cons, List.map_map]
  congr 1
  · simp [slice, hb]
  · refine List.map_congr_left fun j _ => ?_
    have h1 : (j + 1) * w = b.length + j * w := by rw [hb]; ring
    have h2 : (j + 1 + 1) * w = b.length + (j + 1) * w := by rw [hb]; ring
    simp only [Function.comp_apply, Nat.succ_eq_add_one, slice]
    rw [h2, h1, List.drop_append, List.drop_eq_nil_of_le (by omega), List.nil_append]
    congr 1
    · omega
    · congr 1; omega

@[simp] theorem partition_nil (w : Nat) : partition [] w = [] := by simp [partition]

/-- Whole blocks can be taken off the front one by one. -/
theorem exists_block {s : Bits} {w : Nat} (h : s.length % w = 0) (hne : s ≠ []) :
    ∃ b t, s = b ++ t ∧ b.length = w ∧ t.length % w = 0 := by
  have hpos : 1 ≤ s.length := List.length_pos_of_ne_nil hne
  have hle : w ≤ s.length := Nat.le_of_dvd hpos (Nat.dvd_of_mod_eq_zero h)
  refine ⟨s.take w, s.drop w, (List.take_append_drop w s).symm, by simp [hle], ?_⟩
  rw [List.length_drop, ← Nat.mod_eq_sub_mod hle, h]

/-- The blocks of whole blocks followed by one more. -/
theorem partition_append_last {s b : Bits} {w : Nat} (hw : 0 < w) (h : s.length % w = 0) (hb : b.length = w) :
    partition (s ++ b) w = partition s w ++ [b] := by
  induction hn : s.length using Nat.strongRecOn generalizing s with
  | ind n ih =>
    by_cases hne : s = []
    · subst hne
      have := partition_append_block (s := []) hw hb
      simpa using this
    · obtain ⟨x, t, rfl, hx, ht⟩ := exists_block h hne
      rw [List.append_assoc, partition_append_block hw hx, partition_append_block hw hx,
        ih t.length (by rw [← hn, List.length_append]; omega) ht rfl]
      rfl

end Sys2Proof.Machine
end

