-- ==== Sys2Proof/Laws/BitArithmetic.lean ====
section
/-! SUPPORT. When the primitives answer, and the length of what they answer. -/

namespace Sys2Proof.Machine

theorem bitXor_of_length_eq {a b : Bits} (h : a.length = b.length) :
    bitXor a b = .ok (List.zipWith (· != ·) a b) := by
  simp [bitXor, h]

/-- What the adder answers when its operands have one width. -/
theorem fixedWidthIncrement_of_length_eq {a b : Bits} (h : a.length = b.length) :
    fixedWidthIncrement a b = .ok (ripple a b) := by
  simp [fixedWidthIncrement, h]

@[simp] theorem ripple_length {a b : Bits} (h : a.length = b.length) : (ripple a b).1.length = a.length := by
  induction a generalizing b with
  | nil => simp [ripple]
  | cons x a ih =>
    cases b with
    | nil => simp at h
    | cons y b =>
      have := ih (b := b) (by simpa using h)
      simp [ripple, this]

/-- The wrap loop answers a string of the same width, whatever its fuel. -/
theorem wrapCarry_ok (fuel : Nat) (s : Bits) (c : Bool) :
    ∃ r, wrapCarry fuel (s, c) = .ok r ∧ r.length = s.length := by
  induction fuel generalizing s c with
  | zero => cases c <;> exact ⟨s, rfl, rfl⟩
  | succ fuel ih =>
    cases c with
    | false => exact ⟨s, rfl, rfl⟩
    | true =>
      have hl : s.length = (binW s.length 1).length := by simp
      obtain ⟨r, hr, hlen⟩ := ih (ripple s (binW s.length 1)).1 (ripple s (binW s.length 1)).2
      refine ⟨r, ?_, by simpa [ripple_length hl] using hlen⟩
      simp only [wrapCarry, fixedWidthIncrement_of_length_eq hl]
      exact hr

/-- End-around-carry addition of equal widths answers that width. -/
theorem eacAdd_ok {a b : Bits} (h : a.length = b.length) : ∃ r, eacAdd a b = .ok r ∧ r.length = a.length := by
  obtain ⟨r, hr, hlen⟩ := wrapCarry_ok 2 (ripple a b).1 (ripple a b).2
  refine ⟨r, ?_, by rw [hlen, ripple_length h]⟩
  simp only [eacAdd, fixedWidthIncrement_of_length_eq h]
  exact hr

/-- The parity chain from any start. -/
theorem parity_foldl (s : Bits) (p : Bool) : s.foldl (fun p b => p != b) p = (p != parity s) := by
  induction s generalizing p with
  | nil => cases p <;> rfl
  | cons b s ih =>
    simp only [parity, List.foldl_cons]
    rw [ih, ih (false != b)]
    cases p <;> cases b <;> simp

@[simp] theorem parity_nil : parity [] = false := rfl

@[simp] theorem parity_cons (b : Bool) (s : Bits) : parity (b :: s) = (b != parity s) := by
  have := parity_foldl s b
  simpa [parity] using this

@[simp] theorem colParity_length (blocks : List Bits) (w : Nat) : (colParity blocks w).length = w := by
  simp [colParity]

end Sys2Proof.Machine
end

