-- ==== Sys2Proof/Laws/State.lean ====
section
/-! SUPPORT. What each update of the state leaves in each field, so that no later proof unfolds a record update. -/

namespace Sys2Proof.Machine

variable (s : State) (e : Engine) (w : Byte) (f : Failure) (r : CommandResult)

/-! ### Replacing the selected instance -/

@[simp] theorem State.setSelected_engines : (s.setSelected e).engines = s.engines.set s.sel e := rfl
@[simp] theorem State.setSelected_sel : (s.setSelected e).sel = s.sel := rfl
@[simp] theorem State.setSelected_pending : (s.setSelected e).pending = s.pending := rfl
@[simp] theorem State.setSelected_received : (s.setSelected e).received = s.received := rfl
@[simp] theorem State.setSelected_faults : (s.setSelected e).faults = s.faults := rfl

/-- The selected instance exists exactly within the block's instances. -/
theorem State.selected_eq_some_lt {s : State} {e : Engine} (h : s.selected = some e) : s.sel < s.engines.length :=
  (List.getElem?_eq_some_iff.mp h).1

@[simp] theorem State.selected_setSelected {e' : Engine} (h : s.selected = some e) :
    (s.setSelected e').selected = some e' := by
  have hlt := State.selected_eq_some_lt h
  simp [State.selected, hlt]

@[simp] theorem State.setSelected_setSelected (e' : Engine) :
    (s.setSelected e).setSelected e' = s.setSelected e' := by
  simp [State.setSelected, List.set_set]

/-- Another instance's registers stay. -/
theorem State.setSelected_other {j : Nat} (h : j ≠ s.sel) : (s.setSelected e).engines[j]? = s.engines[j]? := by
  simp [Ne.symm h]

/-! ### Taking an access -/

@[simp] theorem State.afterAccess_engines (k : Nat) (rest : List HostEvent) :
    (s.afterAccess k rest e).engines = s.engines.set k e := rfl
@[simp] theorem State.afterAccess_sel (k : Nat) (rest : List HostEvent) : (s.afterAccess k rest e).sel = k := rfl
@[simp] theorem State.afterAccess_pending (k : Nat) (rest : List HostEvent) :
    (s.afterAccess k rest e).pending = rest := rfl
@[simp] theorem State.afterAccess_received (k : Nat) (rest : List HostEvent) :
    (s.afterAccess k rest e).received = s.received := rfl
@[simp] theorem State.afterAccess_faults (k : Nat) (rest : List HostEvent) :
    (s.afterAccess k rest e).faults = s.faults := rfl

/-! ### Reset of a running block -/

@[simp] theorem State.resetEngines_engines : s.resetEngines.engines = s.engines.map fun _ => Engine.reset := rfl
@[simp] theorem State.resetEngines_sel : s.resetEngines.sel = s.sel := rfl
@[simp] theorem State.resetEngines_pending : s.resetEngines.pending = s.pending := rfl
@[simp] theorem State.resetEngines_received : s.resetEngines.received = s.received := rfl
@[simp] theorem State.resetEngines_faults : s.resetEngines.faults = s.faults := rfl

/-! ### Recording a fault -/

@[simp] theorem State.recordFault_engines (x : ReadUnwritten) : (s.recordFault x).engines = s.engines := rfl
@[simp] theorem State.recordFault_sel (x : ReadUnwritten) : (s.recordFault x).sel = s.sel := rfl
@[simp] theorem State.recordFault_pending (x : ReadUnwritten) : (s.recordFault x).pending = s.pending := rfl
@[simp] theorem State.recordFault_received (x : ReadUnwritten) : (s.recordFault x).received = s.received := rfl
@[simp] theorem State.recordFault_faults (x : ReadUnwritten) : (s.recordFault x).faults = s.faults ++ [x] := rfl

/-! ### Commit of a result -/

@[simp] theorem Engine.commitSuccess_cmd : (e.commitSuccess r).cmd = e.cmd := rfl
@[simp] theorem Engine.commitSuccess_status : (e.commitSuccess r).status = doneStatus r.err := rfl
@[simp] theorem Engine.commitSuccess_data : (e.commitSuccess r).data = e.data := rfl
@[simp] theorem Engine.commitSuccess_gen : (e.commitSuccess r).gen = e.gen := rfl
@[simp] theorem Engine.commitSuccess_orig : (e.commitSuccess r).orig = some r.orig := rfl
@[simp] theorem Engine.commitSuccess_tx : (e.commitSuccess r).tx = some r.tx := rfl
@[simp] theorem Engine.commitSuccess_rx : (e.commitSuccess r).rx = some r.rx := rfl

/-! ### Commit of a failure -/

@[simp] theorem Engine.commitFailure_cmd : (e.commitFailure f).cmd = e.cmd := rfl
@[simp] theorem Engine.commitFailure_status : (e.commitFailure f).status = failedStatus f := rfl
@[simp] theorem Engine.commitFailure_data : (e.commitFailure f).data = e.data := rfl
@[simp] theorem Engine.commitFailure_gen : (e.commitFailure f).gen = e.gen := rfl
@[simp] theorem Engine.commitFailure_orig : (e.commitFailure f).orig = none := rfl
@[simp] theorem Engine.commitFailure_tx : (e.commitFailure f).tx = none := rfl
@[simp] theorem Engine.commitFailure_rx : (e.commitFailure f).rx = none := rfl

@[simp] theorem Engine.commit_ok : e.commit (.ok r) = e.commitSuccess r := rfl
@[simp] theorem Engine.commit_error : e.commit (.error f) = e.commitFailure f := rfl

/-- A commit never writes CMD, DATA or GEN (R41, R129, R223). -/
theorem Engine.commit_operands (o : Except Failure CommandResult) :
    (e.commit o).cmd = e.cmd ∧ (e.commit o).data = e.data ∧ (e.commit o).gen = e.gen := by
  cases o <;> exact ⟨rfl, rfl, rfl⟩

/-! ### The STATUS words -/

/-- R129's two words. -/
theorem doneStatus_eq (err : Bool) : doneStatus err = if err then 0x05#8 else 0x01#8 := by
  cases err <;> decide

/-- R223's words. -/
theorem failedStatus_eq : failedStatus f = failureWord f := by
  cases f <;> decide

end Sys2Proof.Machine
end

