-- ==== Sys2Proof/Laws/Ops.lean ====
section
/-! SUPPORT. What the shared operations do, once for each: reaching an instance, validating, running the stages and
committing. -/

namespace Sys2Proof.Machine

/-! ### The selected instance -/

theorem State.onSelected_some {s : State} {e : Engine} (h : s.selected = some e) (act : Engine → Outcome) :
    s.onSelected act = act e := by
  simp [State.onSelected, h]

theorem State.onSelected_none {s : State} (h : s.selected = none) (act : Engine → Outcome) :
    s.onSelected act = .refused (.noSuchInstance s.sel) := by
  simp [State.onSelected, h]

/-- A command on an instance commits its outcome there. -/
theorem State.command_some {s : State} {e : Engine} (h : s.selected = some e)
    (run : Engine → Except Failure CommandResult) : s.command run = .next (s.setSelected (e.commit (run e))) := by
  simp [State.command, State.onSelected_some h]

/-- All a command can do: commit on the selected instance, or be refused because there is none. -/
theorem State.command_cases (s : State) (run : Engine → Except Failure CommandResult) :
    (∃ e, s.selected = some e ∧ s.command run = .next (s.setSelected (e.commit (run e)))) ∨
      (s.selected = none ∧ s.command run = .refused (.noSuchInstance s.sel)) := by
  cases h : s.selected with
  | none => exact .inr ⟨rfl, by simp [State.command, State.onSelected_none h]⟩
  | some e => exact .inl ⟨e, rfl, State.command_some h run⟩

/-- Every instruction is one command. -/
theorem exec_eq_command (i : Instr) (s : State) : exec i s = s.command (runInstr i) := by
  cases i <;> rfl

/-! ### Validation -/

/-- What `validate` lets pass (R222). -/
theorem Engine.validate_ok_iff (e : Engine) (t : Technique) (gsup : Bool) :
    e.validate t gsup = .ok () ↔
      e.data.all isBitSymbol = true ∧ e.data ≠ [] ∧
        (t = .crc → gsup = true → e.gen.all isBitSymbol = true ∧ 2 ≤ e.gen.length) := by
  have hlen : e.data.length < 1 ↔ e.data = [] := by cases e.data <;> simp
  unfold Engine.validate Config.minGenLen Config.minDataLen
  by_cases h1 : e.data.all isBitSymbol = true
  · by_cases ht : t = .crc <;> cases gsup <;> by_cases h2 : e.gen.all isBitSymbol = true <;>
      by_cases h3 : e.gen.length < 2 <;> by_cases h4 : e.data = [] <;>
      simp [hlen, h1, h2, h3, h4, ht, Nat.not_le.mpr, Nat.not_lt.mp]
  · simp [h1]

/-- Validation raises no other failure than R222's three. -/
theorem Engine.validate_error {e : Engine} {t : Technique} {gsup : Bool} {f : Failure}
    (h : e.validate t gsup = .error f) : f = .invalidAlphabet ∨ f = .degenerateGenerator ∨ f = .emptyInput := by
  simp only [Engine.validate] at h
  split at h
  · cases h; exact .inl rfl
  · split at h
    · cases h; exact .inl rfl
    · split at h
      · cases h; exact .inr (.inl rfl)
      · split at h <;> cases h
        exact .inr (.inr rfl)

/-- An instance whose DATA is the symbols of a non-empty string passes, for CRC with a generator operand as well. -/
theorem Engine.validate_of_operands {e : Engine} {d : Bits} (t : Technique) (gsup : Bool) (hd : e.data = toSymbols d)
    (hne : d ≠ []) (hg : t = .crc → gsup = true → ∃ g, e.gen = toSymbols g ∧ 2 ≤ g.length) :
    e.validate t gsup = .ok () := by
  rw [Engine.validate_ok_iff]
  refine ⟨by rw [hd]; simp, by simpa [hd, toSymbols] using hne, fun ht hs => ?_⟩
  obtain ⟨g, hg, hl⟩ := hg ht hs
  rw [hg]
  simpa using hl

/-- The operands that validation lets pass, as bits. -/
theorem Engine.operands_of_validate {e : Engine} {t : Technique} {gsup : Bool} (h : e.validate t gsup = .ok ()) :
    ∃ d, e.data = toSymbols d ∧ d ≠ [] ∧
      (t = .crc → gsup = true → ∃ g, e.gen = toSymbols g ∧ 2 ≤ g.length) := by
  rw [Engine.validate_ok_iff] at h
  obtain ⟨d, hd⟩ := exists_toSymbols h.1
  refine ⟨d, hd, fun h0 => h.2.1 (by simp [hd, h0]), fun ht hs => ?_⟩
  obtain ⟨g, hg⟩ := exists_toSymbols (h.2.2 ht hs).1
  exact ⟨g, hg, by simpa [hg] using (h.2.2 ht hs).2⟩

/-! ### The stages -/

@[simp] theorem flip0_eq (s : Bits) : flip0 s = firstFlipped s := by
  cases s <;> rfl

theorem channel_eq (tx : Bits) (inj : Bool) : channel tx inj = if inj then firstFlipped tx else tx := by
  simp [channel]

@[simp] theorem firstFlipped_length (s : Bits) : (firstFlipped s).length = s.length := by
  cases s <;> rfl

@[simp] theorem channel_length (tx : Bits) (inj : Bool) : (channel tx inj).length = tx.length := by
  cases inj <;> simp [channel]

/-- A run of the stages that answers has sent, passed the channel and received. -/
theorem runStages_ok_iff {d : Bits} {send : Except Failure Bits} {inj : Bool} {recv : Bits → Except Failure Bool}
    {r : CommandResult} :
    runStages d send inj recv = .ok r ↔
      ∃ tx err, send = .ok tx ∧ recv (channel tx inj) = .ok err ∧
        r = { orig := d, tx := tx, rx := channel tx inj, err := err } := by
  cases send with
  | error f => simp [runStages, bind, Except.bind]
  | ok tx =>
    cases h : recv (channel tx inj) with
    | error f => simp [runStages, bind, Except.bind, h]
    | ok err =>
      simp only [runStages, bind, Except.bind, pure, Except.pure, h, Except.ok.injEq]
      exact ⟨fun hr => ⟨tx, err, rfl, h, hr.symm⟩, fun ⟨tx', err', htx, herr, hr⟩ => by
        subst htx; rw [h] at herr; cases herr; exact hr.symm⟩

end Sys2Proof.Machine
end

