-- ==== Sys2Proof/Laws/Commands.lean ====
section
/-! SUPPORT. The engines answer on the operands that validation lets pass, with strings of the stated widths. -/

namespace Sys2Proof.Machine

/-! ### CRC -/

/-- The working register keeps the generator's width, so its xor answers and drops one bit (R170). -/
theorem crcReduce_ok {g reg : Bits} (h : reg.length = g.length) :
    crcReduce g reg = .ok ((List.zipWith (· != ·) (if bitAt reg 0 then g else rep g.length false) reg).drop 1) := by
  unfold crcReduce
  cases hb : bitAt reg 0 with
  | false =>
    rw [if_neg (by simp), if_neg (by simp), bitXor_of_length_eq (by simp [h])]
    rfl
  | true =>
    rw [if_pos rfl, if_pos rfl, bitXor_of_length_eq h.symm]
    rfl

theorem crcReduce_length {g reg x : Bits} (h : reg.length = g.length) (hx : crcReduce g reg = .ok x) :
    x.length = g.length - 1 := by
  rw [crcReduce_ok h] at hx
  cases hx
  cases bitAt reg 0 <;> simp [h]

/-- The loop answers, and REG keeps the generator's width. -/
theorem crcLoop_ok {g : Bits} (s : Bits) (hg : 1 ≤ g.length) (turns : Nat) {k : CrcWork}
    (h : k.reg.length = g.length) : ∃ k', crcLoop g s turns k = .ok k' ∧ k'.reg.length = g.length := by
  induction turns generalizing k with
  | zero => exact ⟨k, rfl, h⟩
  | succ turns ih =>
    have hr := crcReduce_ok h
    have hl := crcReduce_length h hr
    simp only [crcLoop, crcDraw, hr]
    exact ih (by simp only [List.length_append, hl, List.length_singleton]; omega)

theorem crcStart_length {s g : Bits} (h : g.length ≤ s.length) : (crcStart s g).reg.length = g.length := by
  simp [crcStart, slice, h]

/-- The division answers an (l − 1)-bit remainder (R170). -/
theorem mod2div_ok {s g : Bits} (hg : 1 ≤ g.length) (h : g.length ≤ s.length) :
    ∃ r, mod2div s g = .ok r ∧ r.length = g.length - 1 := by
  obtain ⟨k, hk, hl⟩ := crcLoop_ok s hg (s.length - g.length) (crcStart_length h)
  have hr := crcReduce_ok hl
  exact ⟨_, by simp only [mod2div, hk]; exact hr, crcReduce_length hl hr⟩

/-- The CRC sender answers data followed by a remainder (R172). -/
theorem crcSend_ok {d g : Bits} (hd : d ≠ []) (hg : 1 ≤ g.length) :
    ∃ r, mod2div (d ++ rep (g.length - 1) false) g = .ok r ∧ r.length = g.length - 1 ∧
      crcSend d g = .ok (d ++ r) := by
  have hd' : 1 ≤ d.length := List.length_pos_of_ne_nil hd
  obtain ⟨r, hr, hl⟩ := mod2div_ok (s := d ++ rep (g.length - 1) false) hg (by simp; omega)
  exact ⟨r, hr, hl, by simp only [crcSend, hr]; rfl⟩

/-- The CRC receiver answers on a string no shorter than the generator (R173). -/
theorem crcRecv_ok {r g : Bits} (hg : 1 ≤ g.length) (h : g.length ≤ r.length) :
    ∃ x, mod2div r g = .ok x ∧ x.length = g.length - 1 ∧ crcRecv r g = .ok (!allBits x false) := by
  obtain ⟨x, hx, hl⟩ := mod2div_ok hg h
  exact ⟨x, hx, hl, by simp only [crcRecv, hx]; rfl⟩

/-- The generator operand of a valid CRC command converts and has at least two bits (R73, R222). -/
theorem generatorOperand_ok {e : Engine} {gsup : Bool} {g : Bits} (h : GeneratorIs gsup e g) :
    e.generatorOperand gsup = .ok g ∧ 2 ≤ g.length := by
  rcases h with ⟨rfl, hg, hl⟩ | ⟨rfl, rfl⟩
  · exact ⟨by simp [Engine.generatorOperand, hg], hl⟩
  · exact ⟨rfl, by decide⟩

/-! ### Checksum -/

theorem csumFrom_ok {w : Nat} {blocks : List Bits} {sum : Bits} (hs : sum.length = w)
    (hb : ∀ b ∈ blocks, b.length = w) : ∃ r, csumFrom sum blocks = .ok r ∧ r.length = w := by
  induction blocks generalizing sum with
  | nil => exact ⟨sum, rfl, hs⟩
  | cons b blocks ih =>
    obtain ⟨x, hx, hl⟩ := eacAdd_ok (a := sum) (b := b) (by rw [hs, hb b (by simp)])
    simp only [csumFrom, hx]
    exact ih (hl.trans hs) fun b' hb' => hb b' (by simp [hb'])

/-- The fold of one or more blocks of one width answers that width (R190). -/
theorem csumFold_ok {w : Nat} {blocks : List Bits} (hne : blocks ≠ []) (hb : ∀ b ∈ blocks, b.length = w) :
    ∃ r, csumFold blocks = .ok r ∧ r.length = w := by
  cases blocks with
  | nil => exact absurd rfl hne
  | cons b blocks => exact csumFrom_ok (hb b (by simp)) fun b' hb' => hb b' (by simp [hb'])

/-- Non-empty data pads to at least one block. -/
theorem partition_padLeft_ne_nil {d : Bits} {w : Nat} (hd : d ≠ []) (hw : 0 < w) : partition (padLeft d w) w ≠ [] := by
  have hd' : 1 ≤ d.length := List.length_pos_of_ne_nil hd
  have hm := padLeft_length_mod d hw
  have hl : (padLeft d w).length = padAmount d.length w + d.length := by simp [padLeft]
  have hle : w ≤ (padLeft d w).length := Nat.le_of_dvd (by omega) (Nat.dvd_of_mod_eq_zero hm)
  intro h0
  have := congrArg List.length h0
  simp only [partition_length, List.length_nil] at this
  have := Nat.div_pos hle hw
  omega

/-- The Checksum sender answers padded data followed by the complement of a w-bit sum (R191). -/
theorem csumSend_ok {d : Bits} {w : Nat} (hd : d ≠ []) (hw : 0 < w) :
    ∃ sum, csumFold (partition (padLeft d w) w) = .ok sum ∧ sum.length = w ∧
      csumSend d w = .ok (padLeft d w ++ onesComplement sum) := by
  obtain ⟨sum, hsum, hl⟩ := csumFold_ok (partition_padLeft_ne_nil hd hw) fun _ hb => partition_block_length hb
  exact ⟨sum, hsum, hl, by simp only [csumSend, hsum]; rfl⟩

/-- The Checksum receiver answers on two or more blocks (R192). -/
theorem csumRecv_ok {r : Bits} {w : Nat} (hw : 0 < w) (h : 2 * w ≤ r.length) :
    ∃ x, csumFinal r w = .ok x ∧ x.length = w ∧ csumRecv r w = .ok (!allBits x true) := by
  have hk : 2 ≤ (partition r w).length := by
    rw [partition_length]
    exact (Nat.le_div_iff_mul_le hw).2 h
  have hne : (partition r w).dropLast ≠ [] := fun h0 => by
    have := congrArg List.length h0
    simp only [List.length_dropLast, List.length_nil] at this
    omega
  have hne' : partition r w ≠ [] := fun h0 => by simp [h0] at hk
  obtain ⟨sum, hsum, hl⟩ := csumFold_ok hne fun b hb => partition_block_length (List.dropLast_subset _ hb)
  have hlast : ((partition r w).getLastD []).length = w := by
    rw [List.getLastD_eq_getLast?, List.getLast?_eq_some_getLast hne']
    exact partition_block_length (List.getLast_mem hne')
  obtain ⟨x, hx, hxl⟩ := eacAdd_ok (a := sum) (b := (partition r w).getLastD []) (by rw [hl, hlast])
  have hf : csumFinal r w = .ok x := by
    simp only [csumFinal, hsum]
    exact hx
  exact ⟨x, hf, hxl.trans hl, by simp only [csumRecv, hf]; rfl⟩

end Sys2Proof.Machine
end

