-- ==== Sys2Proof/Laws/Step.lean ====
section
/-! SUPPORT. What one step can do: the event it takes, and each way a host access ends. -/

namespace Sys2Proof.Machine

/-- A register is reached by its own number only (R21). -/
theorem HostRegister.number_of_ofNumber {n : Nat} {r : HostRegister} (h : HostRegister.ofNumber n = some r) :
    n = r.number := by
  unfold HostRegister.ofNumber at h
  split at h <;> cases h <;> rfl

/-! ### The step -/

theorem stepWith_nil {s : State} (p : Params) (h : s.pending = []) : stepWith p s = .next s := by
  simp [stepWith, h]

theorem stepWith_cons {s : State} {ev : HostEvent} {rest : List HostEvent} (p : Params)
    (h : s.pending = ev :: rest) : stepWith p s = takeEvent p ev { s with pending := rest } := by
  simp [stepWith, h]

/-! ### A CMD write -/

/-- The outcome of a command word does not depend on the CMD register (R131). -/
theorem runInstr_cmd (i : Instr) (e : Engine) (v : Byte) : runInstr i { e with cmd := v } = runInstr i e := by
  cases i <;> rfl

/-- A CMD write commits its command's outcome over the new word (R120). -/
theorem onWriteCmd_eq {s : State} {e : Engine} (v : Byte) (h : s.selected = some e) :
    onWriteCmd v e s = .next (s.setSelected (Engine.commit { e with cmd := v } (execute v e))) := by
  unfold onWriteCmd execute
  cases decode v with
  | error f => simp [State.takeFailure, State.command_some (State.selected_setSelected s e h)]
  | ok i => simp [exec_eq_command, State.command_some (State.selected_setSelected s e h), runInstr_cmd]

/-! ### An access -/

/-- All that a taken access can do: run a command, store an operand, return a value, or record the fault of a read that
has none; each to one instance. -/
theorem hostAccess_next_cases {p : Params} {k : Nat} {op : HostOp} {s t : State} (h : hostAccess p k op s = .next t) :
    ∃ e, s.engines[k]? = some e ∧
      ((∃ v, op = .write 0 (.word v) ∧
          t = { s with sel := k }.setSelected (Engine.commit { e with cmd := v } (execute v e))) ∨
        (∃ syms, op = .write 2 (.symbols syms) ∧ Params.fits p.maxDataLen syms.length = true ∧
          t = { s with sel := k }.setSelected { e with data := syms }) ∨
        (∃ syms, op = .write 3 (.symbols syms) ∧ Params.fits p.maxGenLen syms.length = true ∧
          t = { s with sel := k }.setSelected { e with gen := syms }) ∨
        (∃ reg r v, op = .read reg ∧ HostRegister.ofNumber reg = some r ∧ e.readRegister r = some v ∧
          t = { s with sel := k, received := s.received ++ [v] }) ∨
        ∃ reg r, op = .read reg ∧ HostRegister.ofNumber reg = some r ∧ e.readRegister r = none ∧
          t = { s with sel := k }.recordFault { engine := k, reg := r }) := by
  cases hsel : ({ s with sel := k } : State).selected with
  | none => rw [hostAccess, State.onSelected_none hsel] at h; cases h
  | some e =>
    refine ⟨e, hsel, ?_⟩
    rw [hostAccess, State.onSelected_some hsel] at h
    cases op with
    | read reg =>
      refine .inr (.inr (.inr ?_))
      simp only [hostRead] at h
      split at h
      · cases h
      · next r hr =>
        split at h
        · next hv => cases h; exact .inr ⟨reg, r, rfl, hr, hv, rfl⟩
        · next v hv => cases h; exact .inl ⟨reg, r, v, rfl, hr, hv, rfl⟩
    | write reg v =>
      simp only [hostWrite] at h
      split at h
      · cases h
      · next hr =>
        obtain rfl := HostRegister.number_of_ofNumber hr
        cases v with
        | symbols syms => cases h
        | word w =>
          simp only at h
          rw [onWriteCmd_eq w hsel] at h
          cases h
          exact .inl ⟨w, rfl, rfl⟩
      · next hr =>
        obtain rfl := HostRegister.number_of_ofNumber hr
        cases v with
        | word w => cases h
        | symbols syms =>
          simp only at h
          split at h
          · next hf => cases h; exact .inr (.inl ⟨syms, rfl, hf, rfl⟩)
          · cases h
      · next hr =>
        obtain rfl := HostRegister.number_of_ofNumber hr
        cases v with
        | word w => cases h
        | symbols syms =>
          simp only at h
          split at h
          · next hf => cases h; exact .inr (.inr (.inl ⟨syms, rfl, hf, rfl⟩))
          · cases h
      all_goals cases h

/-- A step that answers next has taken the oldest input, if there was one, and no other. -/
theorem stepWith_next_pending {p : Params} {s t : State} (h : stepWith p s = .next t) : t.pending = s.pending.tail := by
  cases hp : s.pending with
  | nil => rw [stepWith_nil p hp] at h; cases h; exact hp
  | cons ev rest =>
    rw [stepWith_cons p hp] at h
    cases ev with
    | reset => cases h; rfl
    | access k op =>
      obtain ⟨e, -, ⟨_, _, rfl⟩ | ⟨_, _, _, rfl⟩ | ⟨_, _, _, rfl⟩ | ⟨_, _, _, _, _, _, rfl⟩ | ⟨_, _, _, _, _, rfl⟩⟩ :=
        hostAccess_next_cases h <;> rfl

/-- What a step adds to the recorded faults: at most one, by a read of ORIG, TX or RX that holds no value (R233). -/
theorem stepWith_next_faults {p : Params} {s t : State} (h : stepWith p s = .next t) :
    t.faults = s.faults ∨ ∃ k r rest e, s.pending = .access k (.read r.number) :: rest ∧ s.engines[k]? = some e ∧
      e.readRegister r = none ∧ t.faults = s.faults ++ [{ engine := k, reg := r }] := by
  cases hp : s.pending with
  | nil => rw [stepWith_nil p hp] at h; cases h; exact .inl rfl
  | cons ev rest =>
    rw [stepWith_cons p hp] at h
    cases ev with
    | reset => cases h; exact .inl rfl
    | access k op =>
      obtain ⟨e, he, ⟨_, _, rfl⟩ | ⟨_, _, _, rfl⟩ | ⟨_, _, _, rfl⟩ | ⟨_, _, _, _, _, _, rfl⟩ | ⟨reg, r, rfl, hr, hv, rfl⟩⟩ :=
        hostAccess_next_cases h
      · exact .inl rfl
      · exact .inl rfl
      · exact .inl rfl
      · exact .inl rfl
      · obtain rfl := HostRegister.number_of_ofNumber hr
        exact .inr ⟨k, r, rest, e, rfl, he, hv, rfl⟩

/-! ### Runs -/

/-- A run goes on from where its first step ends. -/
theorem run_succ_next {p : Params} {s t : State} (h : stepWith p s = .next t) (k : Nat) :
    (coreFor p).run (k + 1) s = (coreFor p).run k t := by
  simp [Host.Core.run, h]

/-- A run whose first step is refused ends there. -/
theorem run_succ_refused {p : Params} {s : State} {q : Refusal} (h : stepWith p s = .refused q) (k : Nat) :
    (coreFor p).run (k + 1) s = .refused q := by
  simp [Host.Core.run, h]

end Sys2Proof.Machine
end

