-- ==== Sys2Proof/Laws/PerInstr.lean ====
section
/-! SUPPORT. Facts about the instruction as syntax, one lemma per constructor.

`OpcodeRow`: an instruction's word matches the row of spec/opcode_table.json for its technique, and no other row. -/

namespace Sys2Proof.Laws

/-- The technique of an instruction. -/
def techniqueOf : Instr → Technique
  | .vrc _ _ => .vrc
  | .lrc _ _ => .lrc
  | .crc _ _ => .crc
  | .checksum _ _ => .checksum

/-- The word matches exactly the table's row for the instruction's technique. -/
def OpcodeRow.Statement (i : Instr) : Prop :=
  ∀ r ∈ opcodeTable, r.matches (encode i) = decide (r.technique = techniqueOf i)

theorem OpcodeRow.vrc (inj gsup : Bool) : OpcodeRow.Statement (.vrc inj gsup) := by
  cases inj <;> cases gsup <;> unfold OpcodeRow.Statement <;> decide

theorem OpcodeRow.lrc (inj gsup : Bool) : OpcodeRow.Statement (.lrc inj gsup) := by
  cases inj <;> cases gsup <;> unfold OpcodeRow.Statement <;> decide

theorem OpcodeRow.crc (inj gsup : Bool) : OpcodeRow.Statement (.crc inj gsup) := by
  cases inj <;> cases gsup <;> unfold OpcodeRow.Statement <;> decide

theorem OpcodeRow.checksum (inj gsup : Bool) : OpcodeRow.Statement (.checksum inj gsup) := by
  cases inj <;> cases gsup <;> unfold OpcodeRow.Statement <;> decide

end Sys2Proof.Laws
end

