-- ==== Sys2Proof/Tests/Slice0.lean ====
section
/-! SUPPORT. The model's own tests. Expected values come from spec/95_test_vectors.md (the section is named at each
group) and spec/30_encoding.md; the second part shows, for each statement with hypotheses, values that meet them. -/

namespace Sys2Proof.Tests

open Sys2Proof Sys2Proof.Machine

/-! ## Helpers -/

/-- The bit string a quotation spells. -/
def bs (s : String) : Bits := s.toList.map (· == '1')

/-- The symbols a quotation spells (R79). -/
def sy (s : String) : List Symbol := s.toList.map fun c => BitVec.ofNat 8 c.toNat

/-- A block of one instance without bounds on its registers. -/
def open1 : Params := { maxDataLen := none, maxGenLen := none, nInstances := 1 }

/-- The smallest capacities R7 admits, and two instances. -/
def tight2 : Params := { maxDataLen := some 1, maxGenLen := some 2, nInstances := 2 }

/-- A reset instance with these operands. -/
def eng (d g : String) : Engine := { Engine.reset with data := sy d, gen := sy g }

/-- An instance that has completed VRC on "1". -/
def doneEng : Engine :=
  { cmd := 0x00#8, status := 0x01#8, data := sy "1", gen := [], orig := some (bs "1"), tx := some (bs "11"),
    rx := some (bs "11") }

/-- A block with these instances and these inputs waiting, instance 0 selected. -/
def blk (es : List Engine) (pending : List HostEvent) : State :=
  { engines := es, sel := 0, pending := pending, received := [], faults := [] }

/-- A block of one instance with these operands. -/
def one (d g : String) : State := blk [eng d g] []

/-- Instance 0 after the host has written the command word. -/
def after (d g : String) (w : Byte) : Option Engine :=
  match stepWith open1 ((one d g).issue w) with
  | .next t => t.engines[0]?
  | _ => none

def statusAfter (d g : String) (w : Byte) : Option Byte := (after d g w).map Engine.status
def txAfter (d g : String) (w : Byte) : Option Bits := (after d g w).bind Engine.tx
def rxAfter (d g : String) (w : Byte) : Option Bits := (after d g w).bind Engine.rx

/-- How a step ends, for comparison. -/
def refusalOf : Outcome → Option Refusal
  | .refused r => some r
  | _ => none

def faultsOf : Outcome → Option (List ReadUnwritten)
  | .next t => some t.faults
  | _ => none

def nextOf : Outcome → Option State
  | .next t => some t
  | _ => none

/-- One access to instance 0. -/
def access (p : Params) (e : Engine) (op : HostOp) : Outcome := stepWith p (blk [e] [.access 0 op])

/-! ## Well-formedness: each check refuses an ill-formed term (R21, R54, R55, R57) -/

theorem test_wf_refuses_unassigned_read : HostOp.wf open1 (.read 7) = false := by decide
theorem test_wf_refuses_unassigned_write : HostOp.wf open1 (.write 7 (.word 0#8)) = false := by decide
theorem test_wf_refuses_status_write : HostOp.wf open1 (.write 1 (.word 0#8)) = false := by decide
theorem test_wf_refuses_result_write : HostOp.wf open1 (.write 5 (.symbols [])) = false := by decide
theorem test_wf_refuses_string_to_cmd : HostOp.wf open1 (.write 0 (.symbols (sy "1"))) = false := by decide
theorem test_wf_refuses_word_to_data : HostOp.wf open1 (.write 2 (.word 0#8)) = false := by decide
theorem test_wf_refuses_long_data : HostOp.wf tight2 (.write 2 (.symbols (sy "10"))) = false := by decide
theorem test_wf_refuses_long_gen : HostOp.wf tight2 (.write 3 (.symbols (sy "101"))) = false := by decide
theorem test_wf_refuses_no_instance : HostEvent.wf tight2 (.access 2 (.read 1)) = false := by decide
theorem test_wf_takes_full_registers :
    (HostOp.wf tight2 (.write 2 (.symbols (sy "1"))) && HostOp.wf tight2 (.write 3 (.symbols (sy "11")))) = true := by
  decide

/-! ## Decoding: words written out from the pattern `0000gitt` (30_encoding.md section 4) -/

theorem test_decode_vrc_inj : decodeTableWord 8 0b00000100 = some (.vrc true false) := by decide
theorem test_decode_lrc_gsup : decodeTableWord 8 0b00001001 = some (.lrc false true) := by decide
theorem test_decode_crc_gsup_inj : decodeTableWord 8 0b00001110 = some (.crc true true) := by decide
theorem test_decode_checksum : decodeTableWord 8 0b00000011 = some (.checksum false false) := by decide
theorem test_decode_reserved : decodeTableWord 8 0b00010011 = none := by decide
theorem test_encode_crc_gsup : encode (.crc false true) = 0b00001010#8 := by decide

/-- The table's rows exclude each other, and between them hold exactly the words the decoder takes. -/
theorem test_opcode_rows_partition_legal_words :
    ∀ w : Byte, (opcodeTable.countP fun r => r.matches w) = if (decode w).toOption.isSome then 1 else 0 := by
  decide

/-! ## Primitives (95_test_vectors.md section 2.1) -/

theorem test_xor : (bitXor (bs "1010") (bs "0110")).toOption = some (bs "1100") := by decide
theorem test_xor_length_mismatch : (bitXor (bs "1") (bs "10")).toOption = none := by decide
theorem test_onesComplement : onesComplement (bs "01101010") = bs "10010101" := by decide
theorem test_parity_odd : parity (bs "1001001") = true := by decide
theorem test_adder_carry :
    (fixedWidthIncrement (bs "10011001") (bs "11100110")).toOption = some (bs "01111111", true) := by decide
theorem test_adder_ripple : (fixedWidthIncrement (bs "0111") (bs "0001")).toOption = some (bs "1000", false) := by decide
theorem test_eacAdd_wrap : (eacAdd (bs "10011001") (bs "11100110")).toOption = some (bs "10000000") := by decide
theorem test_eacAdd_ones : (eacAdd (bs "1111") (bs "1111")).toOption = some (bs "1111") := by decide
theorem test_padding_asymmetry :
    padLeft (bs "10110") 4 = bs "00010110" ∧ padRight (bs "10110") 4 = bs "10110000" := by decide

/-! ## Commands -/

/-- 95_test_vectors.md S2. -/
theorem test_vrc_injected :
    rxAfter "1001001" "" 0x04#8 = some (bs "00010011") ∧ statusAfter "1001001" "" 0x04#8 = some 0x05#8 := by decide

/-- 95_test_vectors.md section 2.2: 17 symbols. -/
theorem test_vrc_no_framing : txAfter "10101010101010101" "" 0x00#8 = some (bs "101010101010101011") := by decide

/-- 95_test_vectors.md section 2.3: n = 16 takes 4-bit blocks, and the receiver keeps them for its 20 bits. -/
theorem test_lrc_width_4_at_16 :
    txAfter "1011001110001111" "" 0x01#8 = some (bs "10110011100011111111") ∧
      statusAfter "1011001110001111" "" 0x01#8 = some 0x01#8 := by decide

/-- 95_test_vectors.md section 2.3: n = 17 takes 8-bit blocks, padded on the right. -/
theorem test_lrc_width_8_at_17 :
    txAfter "10110011100011110" "" 0x05#8 = some (bs "10110011100011110000000000111100") ∧
      statusAfter "10110011100011110" "" 0x05#8 = some 0x05#8 := by decide

/-- 95_test_vectors.md S3, with the corrected remainder "100" (90_conflicts.md C1). -/
theorem test_crc_default_generator :
    txAfter "1101011011" "" 0x02#8 = some (bs "1101011011100") ∧
      statusAfter "1101011011" "" 0x06#8 = some 0x05#8 := by decide

/-- 95_test_vectors.md section 2.4: a leading 0 of the generator changes nothing, and "10" has the blind spot. -/
theorem test_crc_generator_corners :
    txAfter "110" "0101" 0x0E#8 = some (bs "110100") ∧ statusAfter "110" "10" 0x0E#8 = some 0x01#8 := by decide

/-- 95_test_vectors.md section 2.4: REG after each of the first three loop steps. -/
theorem test_crc_working_register :
    ((crcLoop (bs "10011") (bs "11010110110000") 3 (crcStart (bs "11010110110000") (bs "10011"))).toOption.map
      CrcWork.reg) = some (bs "00010") := by decide

/-- 95_test_vectors.md S4: three end-around carries. -/
theorem test_checksum_carries :
    txAfter "10011001111001101111001111110101" "" 0x03#8 =
      some (bs "1001100111100110111100111111010110010101") := by decide

/-- 95_test_vectors.md section 2.5: the flipped bit is a pad bit. -/
theorem test_checksum_pad_bit_flipped :
    rxAfter "10110" "" 0x07#8 = some (bs "100101101000") ∧ statusAfter "10110" "" 0x07#8 = some 0x05#8 := by decide

/-! ## Failures and the interface (95_test_vectors.md sections 2.4 and 2.6) -/

theorem test_reset_vrc_empty_input :
    (nextOf (step (State.reset.withFetchWord 8 0x00))).bind (·.selected.map Engine.status) = some 0x32#8 := by decide
theorem test_reserved_wins : statusAfter "1x" "" 0x83#8 = some 0x52#8 := by decide
theorem test_invalid_gen_alphabet_before_length : statusAfter "1011" "x" 0x0A#8 = some 0x12#8 := by decide
theorem test_degenerate_before_empty : statusAfter "" "1" 0x0A#8 = some 0x22#8 := by decide
theorem test_gen_not_read_without_gsup : statusAfter "1011" "1x" 0x02#8 = some 0x01#8 := by decide
theorem test_failure_clears_results :
    (nextOf (access open1 doneEng (.write 0 (.word 0x13#8)))).bind (fun t => t.engines[0]?.map fun e => (e.cmd, e.tx)) =
      some (0x13#8, none) := by decide
theorem test_read_tx_after_reset :
    faultsOf (access open1 Engine.reset (.read 5)) = some [{ engine := 0, reg := .tx }] ∧
      (nextOf (access open1 Engine.reset (.read 5))).map State.received = some [] := by decide
theorem test_write_status_refused :
    refusalOf (access open1 doneEng (.write 1 (.word 0#8))) = some (.readOnlyRegister .status) := by decide
theorem test_read_register_7_refused : refusalOf (access open1 doneEng (.read 7)) = some (.unassignedRegister 7) := by
  decide
theorem test_over_capacity_refused :
    refusalOf (access tight2 doneEng (.write 2 (.symbols (sy "10")))) = some (.overCapacity .data) := by decide
theorem test_operand_write_keeps_tx :
    (nextOf (access open1 doneEng (.write 2 (.symbols (sy "0"))))).bind (fun t => t.engines[0]?.bind Engine.tx) =
      some (bs "11") := by decide
theorem test_read_returns_symbols :
    (nextOf (access open1 doneEng (.read 5))).map State.received = some [.symbols [0x31#8, 0x31#8]] := by decide

/-! ## Host syntax (30_encoding.md section 5) -/

theorem test_parse_wr_data :
    parseLine "wr DATA, \"10x1\"  ; comment".toList = some [.wrData [0x31#8, 0x30#8, 0x78#8, 0x31#8]] := by decide
theorem test_parse_escape : parseLine "wr GEN, \"1\\x41;\"".toList = some [.wrGen [0x31#8, 0x41#8, 0x3B#8]] := by decide
theorem test_parse_mods :
    parseLine "crc gen, inj".toList = some [.command .crc true true] ∧ parseLine "crc inj, inj".toList = none := by
  decide
theorem test_parse_cmd_rd :
    parseProgram ["cmd 0x13".toList, "rd STATUS ; => 0x52".toList, "".toList] =
      some [.cmd 0x13#8, .rd .status] := by decide
theorem test_parse_pseudo : parseLine "runcrc \"110\", \"10\", inj".toList = some [.runcrc (sy "110") (sy "10") true] := by
  decide
/-- 95_test_vectors.md P1, its first two encodings. -/
theorem test_expand_p1 :
    programEvents 0 [.wrData (sy "1001001"), .command .vrc false false] =
      [ .access 0 (.write 2 (.symbols [0x31#8, 0x30#8, 0x30#8, 0x31#8, 0x30#8, 0x30#8, 0x31#8])),
        .access 0 (.write 0 (.word 0x00#8)) ] := by decide

/-! ## Witnesses: values that meet the hypotheses of each statement -/

/-- Two instances, of which the second has completed a command. -/
def duo (pending : List HostEvent) : State := blk [eng "1001001" "10011", doneEng] pending

theorem witness_DecoderTotalOnAllWords : 16 ≤ (0x10#8 : Byte).toNat ∧ 16 ≤ (0xFF#8 : Byte).toNat := by decide

theorem witness_DecodeEncodeRoundTrip :
    Instr.wf (.crc true true) = true ∧ (decode 0x0F#8).toOption = some (.checksum true true) := by decide

theorem witness_GsupSelectsTheGenerator : (eng "1" "10011").gen = toSymbols (bs "10011") := by decide

theorem witness_SymbolsConvertToBits :
    (sy "01" = (bs "01").map fun b => if b then 0x31#8 else 0x30#8) ∧ (∃ c ∈ sy "0x", c ≠ 0x30#8 ∧ c ≠ 0x31#8) := by
  decide

theorem witness_StepRunsDecodedCommand :
    (duo [.access 1 (.write 0 (.word 0x0C#8))]).pending = .access 1 (.write 0 (.word 0x0C#8)) :: [] ∧
      (duo []).engines[1]? = some doneEng ∧ (decode 0x0C#8).toOption = some (.vrc true true) := by decide

theorem witness_PlacedWordRunsNext :
    (one "1" "").selected = some (eng "1" "") ∧ 0x0F < 256 ∧ decodeTableWord 8 0x0F = some (.checksum true true) := by
  decide

theorem witness_CmdWriteRunsOneCommand_completes :
    (duo []).engines[0]? = some (eng "1001001" "10011") ∧
      (execute 0x00#8 (eng "1001001" "10011")).toOption =
        some { orig := bs "1001001", tx := bs "10010011", rx := bs "10010011", err := false } := by decide

theorem witness_CmdWriteRunsOneCommand_fails : execute 0x10#8 doneEng = .error .reservedCommand := by rfl

theorem witness_FramingArithmetic : 0 < 8 ∧ 17 ≤ 24 ∧ 24 % 8 = 0 := by decide

theorem witness_PartitionSplitsInOrder : 0 < 4 ∧ (bs "10110011").length % 4 = 0 ∧ (bs "").length % 4 = 0 := by decide

theorem witness_ChannelFlipsOnlyBitZero :
    (execute 0x04#8 (eng "1" "")).toOption = some { orig := bs "1", tx := bs "11", rx := bs "01", err := true } := by
  decide

theorem witness_TransmittedIsDataThenCheckField :
    ((runInstr (.vrc false false) (eng "1" "")).toOption.isSome ∧ (runInstr (.lrc false false) (eng "1" "")).toOption.isSome) ∧
      (runInstr (.crc false true) (eng "1" "11")).toOption.isSome ∧
      (runInstr (.crc false false) (eng "1" "")).toOption.isSome ∧
      (runInstr (.checksum false false) (eng "1" "")).toOption.isSome := by decide

theorem witness_OutcomeDependsOnlyOnOperands :
    (eng "1" "11").data = doneEng.data ∧ ¬(0x02#8 = 0x0A#8 ∨ 0x02#8 = 0x0E#8) ∧
      (eng "1" "11").data = ({ doneEng with gen := sy "11" } : Engine).data ∧
      (eng "1" "11").gen = ({ doneEng with gen := sy "11" } : Engine).gen := by decide

/-- Unequal lengths and equal ones: XorBitByBit, AdderIsUnsignedAddition. -/
theorem witness_lengths : (bs "1").length ≠ (bs "10").length ∧ (bs "1010").length = (bs "0110").length := by decide

/-- One bit, with and without a carry: EndAroundCarryLaws, WrapLoopNeedsNoMoreFuel. -/
theorem witness_EndAroundCarryLaws :
    (bs "1").length = (bs "1").length ∧ 1 ≤ (bs "1").length ∧
      (fixedWidthIncrement (bs "1") (bs "1")).toOption = some (bs "0", true) ∧
      (fixedWidthIncrement (bs "1") (bs "0")).toOption = some (bs "1", false) := by decide

theorem witness_VrcCompletes :
    (one "1" "").selected = some (eng "1" "") ∧ (eng "1" "").data = toSymbols (bs "1") ∧ bs "1" ≠ [] := by decide

theorem witness_LrcCompletes_16 :
    (one "1011001110001111" "").selected = some (eng "1011001110001111" "") ∧
      (eng "1011001110001111" "").data = toSymbols (bs "1011001110001111") ∧ (bs "1011001110001111").length = 16 := by
  decide

theorem witness_LrcCompletes_17 :
    (one "10110011100011110" "").selected = some (eng "10110011100011110" "") ∧
      (eng "10110011100011110" "").data = toSymbols (bs "10110011100011110") ∧
      (bs "10110011100011110").length = 17 := by decide

theorem witness_CrcCompletes_supplied :
    (one "110" "10").selected = some (eng "110" "10") ∧ (eng "110" "10").data = toSymbols (bs "110") ∧
      bs "110" ≠ [] ∧ GeneratorIs true (eng "110" "10") (bs "10") :=
  ⟨by decide, by decide, by decide, .inl ⟨rfl, by decide, by decide⟩⟩

theorem witness_CrcCompletes_default : GeneratorIs false (eng "110" "x") (bs "1001") := .inr ⟨rfl, by decide⟩

/-- Data of one instance for CHECKSUM at the last width-4 length. -/
theorem witness_ChecksumCompletes_16 :
    (one "1011001110001111" "").selected = some (eng "1011001110001111" "") ∧
      (eng "1011001110001111" "").data = toSymbols (bs "1011001110001111") ∧
      (bs "1011001110001111").length = 16 ∧ frameWidth 16 = 4 := by
  decide

/-- And at the first width-8 length. -/
theorem witness_ChecksumCompletes_17 :
    (one "10110011100011110" "").selected = some (eng "10110011100011110" "") ∧
      (eng "10110011100011110" "").data = toSymbols (bs "10110011100011110") ∧
      (bs "10110011100011110").length = 17 ∧ frameWidth 17 = 8 := by
  decide

theorem witness_ChecksumCompletes :
    (one "10110" "").selected = some (eng "10110" "") ∧ (eng "10110" "").data = toSymbols (bs "10110") ∧
      bs "10110" ≠ [] := by decide

/-- Two blocks and their sums: ColumnParityIsLaneWise, ChecksumFoldLaws. -/
theorem witness_blocks :
    [bs "1011", bs "0011"] ≠ [] ∧ (∀ b ∈ [bs "1011", bs "0011"], b.length = 4) ∧ 1 ≤ 4 ∧
      (csumFold [bs "1011", bs "0011"]).toOption = some (bs "1110") ∧
      (eacAdd (bs "1110") (bs "0011")).toOption = some (bs "0010") := by decide

/-- The clauses of ChecksumFoldLaws on one block and on a reordering. -/
theorem witness_blocks_single_and_permuted :
    [bs "1011"].length = 1 ∧ [bs "1011"].head? = some (bs "1011") ∧
      (csumFold [bs "1011"]).toOption = some (bs "1011") ∧
      [bs "1011", bs "0011"].Perm [bs "0011", bs "1011"] :=
  ⟨by decide, by decide, by decide, List.Perm.swap _ _ _⟩

theorem witness_DivisionIsPolynomialRemainder :
    2 ≤ (bs "10").length ∧ (bs "10").length ≤ (bs "11").length ∧
      (bitXor (bs "11") (bs "01")).toOption = some (bs "10") := by decide

theorem witness_AllZeroGeneratorPassesThrough : 2 ≤ 2 ∧ 2 ≤ (bs "11").length := by decide

theorem witness_CmdWriteCommitsFirstFailure :
    failureOf 0x10#8 (eng "x" "") = some .reservedCommand ∧ failureOf 0x0F#8 (eng "x" "") = some .invalidAlphabet ∧
      failureOf 0x0A#8 (eng "" "x") = some .invalidAlphabet ∧ failureOf 0x0E#8 (eng "" "1") = some .degenerateGenerator ∧
      failureOf 0x0A#8 (eng "" "10") = some .emptyInput ∧ failureOf 0x02#8 (eng "1" "x") = none := by decide

theorem witness_LengthMismatchUnreachable :
    (bs "").length ≠ (bs "1").length ∧ (one "1" "").selected = some (eng "1" "") := by decide

theorem witness_FailedCommandTakesFailure :
    (one "1" "1").selected = some (eng "1" "1") ∧
      failureOf (encode (.crc false true)) (eng "1" "1") = some .degenerateGenerator ∧
      failureOf (encode (.vrc true true)) (eng "" "") = some .emptyInput := by decide

theorem witness_CommandFrame :
    (nextOf (exec (.lrc true false) (one "1" ""))).isSome ∧ (one "1" "").selected = some (eng "1" "") ∧
      (blk [] []).selected = none := by decide

theorem witness_OtherInstancesUntouched :
    (nextOf (stepWith tight2 (duo [.access 1 (.write 0 (.word 0x07#8))]))).isSome := by decide

theorem witness_InstancesDoNotInterfere :
    ((nextOf (takeEvent tight2 (.access 0 (.write 0 (.word 0x01#8))) (duo []))).bind fun u =>
        nextOf (takeEvent tight2 (.access 1 (.write 2 (.symbols (sy "0")))) u)).isSome ∧
      (nextOf (takeEvent tight2 (.access 1 (.write 2 (.symbols (sy "0")))) (duo []))).isSome := by decide

theorem witness_ReadReturnsWholeRegister :
    (duo []).engines[1]? = some doneEng ∧ doneEng.orig = some (bs "1") ∧ doneEng.tx = some (bs "11") ∧
      doneEng.rx = some (bs "11") := by decide

theorem witness_ReadOfNoValueFaults :
    (duo []).engines[0]? = some (eng "1001001" "10011") ∧ (eng "1001001" "10011").orig = none ∧
      (eng "1001001" "10011").tx = none ∧ (eng "1001001" "10011").rx = none := by decide

theorem witness_RefusedAccesses :
    (duo []).engines[0]? = some (eng "1001001" "10011") ∧ 7 ≤ 7 ∧ tight2.maxDataLen = some 1 ∧
      1 < (sy "10").length ∧ tight2.maxGenLen = some 2 ∧ 2 < (sy "101").length ∧
      HostOp.wf tight2 (.write 3 (.symbols (sy "11"))) = true ∧ HostOp.wf tight2 (.read 6) = true := by decide

theorem witness_OperandWriteStoresString :
    (duo []).engines[0]? = some (eng "1001001" "10011") ∧ (∀ c, tight2.maxDataLen = some c → (sy "1").length ≤ c) ∧
      (∀ c, tight2.maxGenLen = some c → (sy "11").length ≤ c) :=
  ⟨by decide, fun c h => by cases h; decide, fun c h => by cases h; decide⟩

theorem witness_RepeatedCommandLeavesSameRegisters :
    ((nextOf (takeEvent tight2 (.access 1 (.write 0 (.word 0x06#8))) (duo []))).bind fun t =>
      nextOf (takeEvent tight2 (.access 1 (.write 0 (.word 0x06#8))) t)).isSome := by decide

theorem witness_AccessOutsideInterfaceRefused :
    (duo []).engines.length ≤ 2 ∧ 1 < (duo []).engines.length := by decide

theorem witness_ResetSetsEveryRegister : (duo [.reset, .reset]).pending = .reset :: [.reset] := by decide

theorem witness_IdleStepKeepsState : (duo []).pending = [] := by decide

/-- An instance that has completed a command meets the invariant. -/
theorem doneEng_inv : Engine.Inv open1 doneEng where
  status := by decide
  idle := by decide
  reserved := by decide
  held _ := ⟨bs "1", bs "11", bs "11", by decide⟩
  notHeld h := absurd (by decide) h
  dataFits := by decide
  genFits := by decide

theorem witness_EveryStepKeepsInvariant :
    State.Inv open1 (blk [doneEng] [.access 0 (.write 0 (.word 0x06#8))]) ∧
      (nextOf (stepWith open1 (blk [doneEng] [.access 0 (.write 0 (.word 0x06#8))]))).isSome :=
  ⟨⟨rfl, fun e he => by rw [List.mem_singleton.mp he]; exact doneEng_inv⟩, by decide⟩

theorem witness_EveryStepKeepsVerdictInvariant :
    State.VerdictInv (blk [doneEng] [.access 0 (.write 0 (.word 0x06#8))]) :=
  fun e he => by rw [List.mem_singleton.mp he]; exact ⟨by decide, by decide⟩

/-- A reset instance meets the invariant where its registers hold nothing; reading TX then is the fault of R253. -/
theorem witness_FaultsExactlyOnReadsWhileNotDone :
    State.Inv open1 (blk [doneEng] [.access 0 (.read 5)]) ∧
      faultsOf (stepWith open1 (blk [eng "" ""] [.access 0 (.read 5)])) = some [{ engine := 0, reg := .tx }] :=
  ⟨⟨rfl, fun e he => by rw [List.mem_singleton.mp he]; exact doneEng_inv⟩, by decide⟩

/-- A block that has completed a command and is told to read TX, to run a reserved word, and to read TX again: its
inputs are of the interface, the first read is well, and the second one, input 2, is the read of R253. -/
def rereads : State := blk [doneEng] [.access 0 (.read 5), .access 0 (.write 0 (.word 0x13#8)), .access 0 (.read 5)]

theorem witness_RunsFaultExactlyAtReadsWhileNotDone :
    State.Inv open1 rereads ∧ ¬rereads.Faulted ∧ (∀ ev ∈ rereads.pending, ev.wf open1 = true) ∧
      GoodRun open1 2 rereads ∧ ReadsWhileNotDone open1 rereads 2 0 .tx :=
  ⟨⟨rfl, fun e he => by rw [List.mem_singleton.mp he]; exact doneEng_inv⟩, fun h => h rfl, by decide,
    ⟨_, rfl, fun h => h rfl⟩, rfl, by decide, _, _, rfl, rfl, by decide⟩

/-- A faulted block that is reset and then told to read STATUS. -/
def faultedBlk : State :=
  { blk [doneEng] [.reset, .access 0 (.read 1)] with faults := [{ engine := 0, reg := .tx }] }

theorem witness_RecordedFaultsStay :
    faultedBlk.Faulted ∧ ∃ t, (coreFor open1).run 2 faultedBlk = .next t ∧ t.faults = faultedBlk.faults :=
  ⟨by decide, _, rfl, rfl⟩

end Sys2Proof.Tests
end

section
/-! PROOFS. The host's reads and the reset of a running block as steps; O37 and O42 (10_state.md). -/

namespace Sys2Proof.Machine

/-! ### Host reads -/

/-- Each register is reached by its number (R21). -/
@[simp] theorem HostRegister.ofNumber_number (r : HostRegister) : HostRegister.ofNumber r.number = some r := by
  cases r <;> rfl

/-- A step that takes a read of an existing instance is `hostRead` on that instance, now selected (R57). -/
theorem stepWith_read {s : State} {k reg : Nat} {rest : List HostEvent} {e : Engine} (p : Params)
    (hp : s.pending = .access k (.read reg) :: rest) (he : s.engines[k]? = some e) :
    stepWith p s = hostRead reg e { s with sel := k, pending := rest } := by
  have hsel : ({ s with sel := k, pending := rest } : State).selected = some e := he
  rw [stepWith_cons p hp, takeEvent, hostAccess, State.onSelected_some hsel]

theorem hostRead_of_readRegister_none {r : HostRegister} {e : Engine} (s : State) (h : e.readRegister r = none) :
    hostRead r.number e s = .next (s.recordFault { engine := s.sel, reg := r }) := by
  simp [hostRead, h]

/-- A read of a register without a value only takes the input, selects the instance and records the fault (R37, R233). -/
theorem stepWith_read_of_none {s : State} {k : Nat} {rest : List HostEvent} {e : Engine} (p : Params)
    (r : HostRegister) (hp : s.pending = .access k (.read r.number) :: rest) (he : s.engines[k]? = some e)
    (h : e.readRegister r = none) :
    stepWith p s = .next { s with sel := k, pending := rest, faults := s.faults ++ [{ engine := k, reg := r }] } := by
  rw [stepWith_read p hp he, hostRead_of_readRegister_none _ h]
  rfl

/-! ### Reset -/

/-- Every instance of a block right after reset is a reset one (R36). -/
theorem State.eq_reset_of_mem_resetFor {p : Params} {e : Engine} (h : e ∈ (State.resetFor p).engines) :
    e = Engine.reset :=
  List.eq_of_mem_replicate h

/-- A reset of a running block replaces the instances and nothing else (R250, logs 6 and 8). -/
theorem State.resetEngines_eq (s : State) :
    s.resetEngines = { s with engines := List.replicate s.engines.length Engine.reset } := by
  rw [← List.map_const']
  rfl

theorem stepWith_reset {s : State} {rest : List HostEvent} (p : Params) (hp : s.pending = .reset :: rest) :
    stepWith p s =
      .next { s with pending := rest, engines := List.replicate s.engines.length Engine.reset } := by
  rw [stepWith_cons p hp, takeEvent, State.resetEngines_eq]

end Sys2Proof.Machine

open Sys2Proof Sys2Proof.Machine

/-- Settles O37: the three reads are one lemma at three registers; a reset instance and a failed one hold no result. -/
theorem readOfNoValueFaults : Obligations.ReadOfNoValueFaults := by
  unfold Obligations.ReadOfNoValueFaults
  refine ⟨fun p s k reg rest e hp he => ⟨?_, ?_, ?_⟩, fun p e he => ?_, fun e f => by simp⟩
  · rintro rfl h
    exact stepWith_read_of_none p .orig hp he (by simp [Engine.readRegister, h])
  · rintro rfl h
    exact stepWith_read_of_none p .tx hp he (by simp [Engine.readRegister, h])
  · rintro rfl h
    exact stepWith_read_of_none p .rx hp he (by simp [Engine.readRegister, h])
  · obtain rfl := State.eq_reset_of_mem_resetFor he
    exact ⟨rfl, rfl, rfl⟩

/-- Settles O42: `Engine.reset` holds R36's values; a reset event puts it in every instance. -/
theorem resetSetsEveryRegister : Obligations.ResetSetsEveryRegister := by
  unfold Obligations.ResetSetsEveryRegister
  exact ⟨fun _ => rfl, fun p _ _ hp => stepWith_reset p hp⟩

end

section
/-! PROOFS. The host's writes as steps, and which accesses are refused; O38 (20_memory.md). -/

namespace Sys2Proof.Machine

/-! ### Register numbers and capacities -/

/-- The unassigned numbers are those from 7 on (R21). -/
theorem HostRegister.ofNumber_eq_none {reg : Nat} (h : 7 ≤ reg) : HostRegister.ofNumber reg = none := by
  obtain ⟨n, rfl⟩ := Nat.exists_eq_add_of_le' h
  rfl

/-- Every number up to 6 is a register's (R21). -/
theorem HostRegister.exists_number_eq {reg : Nat} (h : reg ≤ 6) : ∃ r : HostRegister, reg = r.number := by
  cases hr : HostRegister.ofNumber reg with
  | some r => exact ⟨r, HostRegister.number_of_ofNumber hr⟩
  | none => interval_cases reg <;> cases hr

/-- A string longer than a bounded capacity does not fit (R55). -/
theorem fits_eq_false {cap : Option Nat} {c n : Nat} (hc : cap = some c) (h : c < n) : Params.fits cap n = false := by
  simpa [Params.fits, hc] using h

/-! ### Host reads and writes -/

theorem hostRead_unassigned {reg : Nat} (e : Engine) (s : State) (h : 7 ≤ reg) :
    hostRead reg e s = .refused (.unassignedRegister reg) := by
  simp [hostRead, HostRegister.ofNumber_eq_none h]

/-- A read of a register is taken, whether or not the register holds a value (R37, R233). -/
theorem hostRead_number_next (r : HostRegister) (e : Engine) (s : State) : ∃ t, hostRead r.number e s = .next t := by
  cases hv : e.readRegister r with
  | none => exact ⟨_, hostRead_of_readRegister_none s hv⟩
  | some v => exact ⟨{ s with received := s.received ++ [v] }, by simp [hostRead, hv]⟩

theorem hostWrite_unassigned {reg : Nat} (p : Params) (v : RegValue) (e : Engine) (s : State) (h : 7 ≤ reg) :
    hostWrite p reg v e s = .refused (.unassignedRegister reg) := by
  simp [hostWrite, HostRegister.ofNumber_eq_none h]

theorem hostWrite_data_of_fits {p : Params} {syms : List Symbol} (e : Engine) (s : State)
    (h : Params.fits p.maxDataLen syms.length = true) :
    hostWrite p 2 (.symbols syms) e s = .next (s.setSelected { e with data := syms }) :=
  if_pos h

theorem hostWrite_data_of_not_fits {p : Params} {syms : List Symbol} (e : Engine) (s : State)
    (h : Params.fits p.maxDataLen syms.length = false) :
    hostWrite p 2 (.symbols syms) e s = .refused (.overCapacity .data) :=
  if_neg (by simp [h])

theorem hostWrite_gen_of_fits {p : Params} {syms : List Symbol} (e : Engine) (s : State)
    (h : Params.fits p.maxGenLen syms.length = true) :
    hostWrite p 3 (.symbols syms) e s = .next (s.setSelected { e with gen := syms }) :=
  if_pos h

theorem hostWrite_gen_of_not_fits {p : Params} {syms : List Symbol} (e : Engine) (s : State)
    (h : Params.fits p.maxGenLen syms.length = false) :
    hostWrite p 3 (.symbols syms) e s = .refused (.overCapacity .gen) :=
  if_neg (by simp [h])

/-- A step that takes a write to an existing instance is `hostWrite` on that instance, now selected (R57). -/
theorem stepWith_write {s : State} {k reg : Nat} {v : RegValue} {rest : List HostEvent} {e : Engine} (p : Params)
    (hp : s.pending = .access k (.write reg v) :: rest) (he : s.engines[k]? = some e) :
    stepWith p s = hostWrite p reg v e { s with sel := k, pending := rest } := by
  have hsel : ({ s with sel := k, pending := rest } : State).selected = some e := he
  rw [stepWith_cons p hp, takeEvent, hostAccess, State.onSelected_some hsel]

/-! ### Well-formed accesses -/

/-- The accesses that the syntax admits: a read of a register, a word to CMD, a string that fits to DATA or GEN. -/
theorem HostOp.wf_cases {p : Params} {op : HostOp} (h : op.wf p = true) :
    (∃ r : HostRegister, op = .read r.number) ∨ (∃ w, op = .write 0 (.word w)) ∨
      (∃ syms, op = .write 2 (.symbols syms) ∧ Params.fits p.maxDataLen syms.length = true) ∨
      ∃ syms, op = .write 3 (.symbols syms) ∧ Params.fits p.maxGenLen syms.length = true := by
  unfold HostOp.wf at h
  split at h
  · obtain ⟨r, rfl⟩ := HostRegister.exists_number_eq (of_decide_eq_true h)
    exact .inl ⟨r, rfl⟩
  · exact .inr (.inl ⟨_, rfl⟩)
  · exact .inr (.inr (.inl ⟨_, rfl, h⟩))
  · exact .inr (.inr (.inr ⟨_, rfl, h⟩))
  · cases h

/-- A well-formed access to an existing instance is taken (R54, R55). -/
theorem stepWith_wf_access_next {p : Params} {s : State} {k : Nat} {op : HostOp} {rest : List HostEvent} {e : Engine}
    (hp : s.pending = .access k op :: rest) (he : s.engines[k]? = some e) (hwf : op.wf p = true) :
    ∃ t, stepWith p s = .next t := by
  obtain ⟨r, rfl⟩ | ⟨w, rfl⟩ | ⟨syms, rfl, hf⟩ | ⟨syms, rfl, hf⟩ := HostOp.wf_cases hwf
  · rw [stepWith_read p hp he]
    exact hostRead_number_next r e _
  · rw [stepWith_write p hp he]
    exact ⟨_, onWriteCmd_eq w he⟩
  · rw [stepWith_write p hp he]
    exact ⟨_, hostWrite_data_of_fits e _ hf⟩
  · rw [stepWith_write p hp he]
    exact ⟨_, hostWrite_gen_of_fits e _ hf⟩

end Sys2Proof.Machine

open Sys2Proof Sys2Proof.Machine

/-- Settles O38: each refused access is its register's case of `hostRead` or `hostWrite`; a well-formed one has a next
state. -/
theorem refusedAccesses : Obligations.RefusedAccesses := by
  unfold Obligations.RefusedAccesses
  intro p s k op rest e hp he
  refine ⟨?unassigned, ?status, ?orig, ?tx, ?rx, ?data, ?gen, ?wellFormed⟩
  case unassigned =>
    rintro reg h (rfl | ⟨v, rfl⟩)
    · rw [stepWith_read p hp he, hostRead_unassigned e _ h]
    · rw [stepWith_write p hp he, hostWrite_unassigned p v e _ h]
  case status => rintro v rfl; exact stepWith_write p hp he
  case orig => rintro v rfl; exact stepWith_write p hp he
  case tx => rintro v rfl; exact stepWith_write p hp he
  case rx => rintro v rfl; exact stepWith_write p hp he
  case data =>
    rintro syms c rfl hc h
    rw [stepWith_write p hp he, hostWrite_data_of_not_fits e _ (fits_eq_false hc h)]
  case gen =>
    rintro syms c rfl hc h
    rw [stepWith_write p hp he, hostWrite_gen_of_not_fits e _ (fits_eq_false hc h)]
  case wellFormed =>
    intro hwf r hr
    obtain ⟨t, ht⟩ := stepWith_wf_access_next hp he hwf
    cases ht.symm.trans hr

end

section
/-! PROOFS. The command word: its number, its fields and the decoder; O1 (30_encoding.md). -/

namespace Sys2Proof

/-- A command word is its fields as a number (R22, R70). -/
theorem commandWord_eq_ofNat (t : Technique) (inj gsup : Bool) :
    commandWord t inj gsup = BitVec.ofNat 8 (t.code.toNat + 4 * inj.toNat + 8 * gsup.toNat) := by
  cases t <;> cases inj <;> cases gsup <;> decide

@[simp] theorem decode_commandWord (t : Technique) (inj gsup : Bool) :
    decode (commandWord t inj gsup) = .ok (t.toInstr inj gsup) := by
  cases t <;> cases inj <;> cases gsup <;> rfl

/-- The reserved bits are 0 exactly in the words below 16 (R22, R77). -/
theorem cmdReserved_eq_zero_iff (w : Byte) : cmdReserved w = 0#4 ↔ w.toNat < 16 := by
  have hw := w.isLt
  rw [cmdReserved, ← BitVec.toNat_inj, BitVec.extractLsb'_toNat, BitVec.toNat_ofNat, Nat.shiftRight_eq_div_pow]
  omega

theorem decode_of_reserved {w : Byte} (h : 16 ≤ w.toNat) : decode w = .error .reservedCommand :=
  if_neg fun h0 => by
    have := (cmdReserved_eq_zero_iff w).mp h0
    omega

/-- Every TECH value is its technique's code (R71). -/
@[simp] theorem code_techOf (t : BitVec 2) : (techOf t).code = t := by
  revert t; decide

/-- A legal word is put together from its own fields (R70). -/
theorem commandWord_fields {w : Byte} (h : w.toNat < 16) :
    commandWord (techOf (cmdTech w)) (cmdInj w) (cmdGsup w) = w := by
  revert w; decide

/-- The legal words are the command words (R70, R77). -/
theorem exists_commandWord_eq {w : Byte} (h : w.toNat < 16) : ∃ t inj gsup, w = commandWord t inj gsup :=
  ⟨_, _, _, (commandWord_fields h).symm⟩

end Sys2Proof

open Sys2Proof Sys2Proof.Machine

/-- Settles O1: the reserved bits are 0 below 16 only, and each legal word is a command word, given by its number. -/
theorem decoderTotalOnAllWords : Obligations.DecoderTotalOnAllWords := by
  unfold Obligations.DecoderTotalOnAllWords
  have hword (t : Technique) (inj gsup : Bool) :
      decode (BitVec.ofNat 8 (t.code.toNat + 4 * inj.toNat + 8 * gsup.toNat)) = .ok (t.toInstr inj gsup) := by
    rw [← commandWord_eq_ofNat, decode_commandWord]
  exact ⟨fun _ => decode_of_reserved, fun inj gsup =>
    ⟨hword .vrc inj gsup, hword .lrc inj gsup, hword .crc inj gsup, hword .checksum inj gsup⟩⟩

end

section
/-! PROOFS. Validation: when it reads GEN, and that its answer is `failureOf`'s of the word; O4 (30_encoding.md). -/

namespace Sys2Proof.Machine

/-! ### What reads GEN -/

/-- Only CRC with GSUP = 1 validates GEN (R73, R222). -/
theorem Engine.validate_gen_unread (e : Engine) (gen : List Symbol) {t : Technique} {gsup : Bool}
    (h : ¬(t = .crc ∧ gsup = true)) : Engine.validate { e with gen := gen } t gsup = e.validate t false := by
  have hreads : (decide (t = .crc) && gsup) = false := by simpa using h
  simp [Engine.validate, hreads]

/-- A proper generator in GEN adds no failure (R222). -/
theorem Engine.validate_crc_of_gen_valid {e : Engine} (h : e.gen.all isBitSymbol = true) (hl : 2 ≤ e.gen.length) :
    e.validate .crc true = e.validate .crc false := by
  have hmin : ¬e.gen.length < Config.minGenLen := Nat.not_lt.mpr hl
  simp [Engine.validate, h, hmin]

/-- The words that read GEN are those of CRC with GSUP = 1 (R73). -/
theorem commandWord_reads_gen_iff (t : Technique) (inj gsup : Bool) :
    (commandWord t inj gsup = 0x0A#8 ∨ commandWord t inj gsup = 0x0E#8) ↔ t = .crc ∧ gsup = true := by
  cases t <;> cases inj <;> cases gsup <;> decide

/-! ### Validation by the word's number -/

/-- A symbol string fails validation exactly if it holds a symbol other than the two of R75. -/
theorem exists_bad_symbol_iff (syms : List Symbol) :
    (∃ c ∈ syms, c ≠ 0x30#8 ∧ c ≠ 0x31#8) ↔ (!syms.all isBitSymbol) = true := by
  simp [isBitSymbol, symbol0, symbol1]

theorem commandWord_toNat_lt (t : Technique) (inj gsup : Bool) : (commandWord t inj gsup).toNat < 16 := by
  cases t <;> cases inj <;> cases gsup <;> decide

/-- Validation answers the failure that R222 and R74 assign to the command word. -/
theorem Engine.validate_eq_failureOf (e : Engine) (t : Technique) (inj gsup : Bool) :
    e.validate t gsup = (failureOf (commandWord t inj gsup) e).elim (.ok ()) .error := by
  have hlegal : ¬16 ≤ (commandWord t inj gsup).toNat := Nat.not_le.mpr (commandWord_toNat_lt t inj gsup)
  have hempty : e.data.length < Config.minDataLen ↔ e.data = [] := by simp [Config.minDataLen]
  have hshort : e.gen.length < Config.minGenLen ↔ e.gen.length < 2 := Iff.rfl
  simp only [Engine.validate, failureOf, if_neg hlegal, exists_bad_symbol_iff, commandWord_reads_gen_iff, hempty,
    Bool.and_eq_true, decide_eq_true_eq, hshort]
  split_ifs <;> rfl

end Sys2Proof.Machine

open Sys2Proof Sys2Proof.Machine

/-- Settles O4: only CRC with GSUP = 1 validates GEN or takes its generator from it, and "1001" is a proper one. -/
theorem gsupSelectsTheGenerator : Obligations.GsupSelectsTheGenerator := by
  unfold Obligations.GsupSelectsTheGenerator
  intro inj gsup e gen
  have unread {t : Technique} {b : Bool} (h : ¬(t = .crc ∧ b = true)) := e.validate_gen_unread gen h
  refine ⟨?vrc, ?lrc, ?checksum, ?crcGen, ?crcDefault, fun g hg => ?supplied, rfl⟩
  case vrc => simp only [runInstr, vrcRun, unread (t := .vrc) (by simp)]
  case lrc => simp only [runInstr, lrcRun, unread (t := .lrc) (by simp)]
  case checksum => simp only [runInstr, checksumRun, unread (t := .checksum) (by simp)]
  case crcGen => simp only [runInstr, crcRun, unread (t := .crc) (b := false) (by simp)]; rfl
  case crcDefault =>
    have hvalid : Engine.validate { e with gen := [0x31#8, 0x30#8, 0x30#8, 0x31#8] } .crc true =
        e.validate .crc false := by
      rw [Engine.validate_crc_of_gen_valid rfl (by simp), Engine.validate_gen_unread e _ (by simp)]
    simp only [runInstr, crcRun, hvalid]
    rfl
  case supplied => simp [Engine.generatorOperand, hg]

end

section
/-! PROOFS. A CMD write as a step: a valid command completes, an invalid one fails as `failureOf` says; O29
(60_exceptions.md). -/

namespace Sys2Proof.Machine

/-! ### A valid command is its three stages -/

theorem vrcRun_eq_runStages {e : Engine} {d : Bits} {gsup : Bool} (inj : Bool) (hv : e.validate .vrc gsup = .ok ())
    (hd : e.data = toSymbols d) :
    vrcRun inj gsup e = runStages d (.ok (vrcSend d)) inj fun r => .ok (vrcRecv r) := by
  simp only [vrcRun, hv, hd, bits_toSymbols]
  rfl

theorem lrcRun_eq_runStages {e : Engine} {d : Bits} {gsup : Bool} (inj : Bool) (hv : e.validate .lrc gsup = .ok ())
    (hd : e.data = toSymbols d) :
    lrcRun inj gsup e =
      runStages d (.ok (lrcSend d (blockWidth d.length))) inj fun r => .ok (lrcRecv r (blockWidth d.length)) := by
  simp only [lrcRun, hv, hd, bits_toSymbols]
  rfl

theorem crcRun_eq_runStages {e : Engine} {d g : Bits} {gsup : Bool} (inj : Bool) (hv : e.validate .crc gsup = .ok ())
    (hd : e.data = toSymbols d) (hg : e.generatorOperand gsup = .ok g) :
    crcRun inj gsup e = runStages d (crcSend d g) inj fun r => crcRecv r g := by
  simp only [crcRun, hv, hd, bits_toSymbols, hg]
  rfl

theorem checksumRun_eq_runStages {e : Engine} {d : Bits} {gsup : Bool} (inj : Bool)
    (hv : e.validate .checksum gsup = .ok ()) (hd : e.data = toSymbols d) :
    checksumRun inj gsup e =
      runStages d (csumSend d (blockWidth d.length)) inj fun r => csumRecv r (blockWidth d.length) := by
  simp only [checksumRun, hv, hd, bits_toSymbols]
  rfl

/-! ### The stages answer -/

/-- Stages that send and receive complete with the data in ORIG (R121). -/
theorem runStages_completes {tx : Bits} {send : Except Failure Bits} {inj : Bool} {recv : Bits → Except Failure Bool}
    {err : Bool} (d : Bits) (hs : send = .ok tx) (hr : recv (channel tx inj) = .ok err) :
    ∃ r, runStages d send inj recv = .ok r ∧ r.orig = d :=
  ⟨_, runStages_ok_iff.mpr ⟨tx, err, hs, hr, rfl⟩, rfl⟩

/-- CRC on data and a generator of 2 bits or more completes (R172, R173). -/
theorem crc_stages_complete {d g : Bits} (inj : Bool) (hne : d ≠ []) (hg : 2 ≤ g.length) :
    ∃ r, runStages d (crcSend d g) inj (fun r => crcRecv r g) = .ok r ∧ r.orig = d := by
  have hpos : 1 ≤ d.length := List.length_pos_of_ne_nil hne
  obtain ⟨rem, -, hlen, hsend⟩ := crcSend_ok hne (show 1 ≤ g.length by omega)
  have hrx : g.length ≤ (channel (d ++ rem) inj).length := by
    rw [channel_length, List.length_append]
    omega
  obtain ⟨x, -, -, hrecv⟩ := crcRecv_ok (by omega) hrx
  exact runStages_completes d hsend hrecv

/-- Non-empty data pads to a block or more (R126). -/
theorem le_padLeft_length {d : Bits} {w : Nat} (hne : d ≠ []) (hw : 0 < w) : w ≤ (padLeft d w).length := by
  have hpos : 0 < (padLeft d w).length := by simp [padLeft, List.length_pos_iff.mpr hne]
  exact Nat.le_of_dvd hpos (Nat.dvd_of_mod_eq_zero (padLeft_length_mod d hw))

/-- CHECKSUM on data completes at any block width (R191, R192). -/
theorem checksum_stages_complete {d : Bits} {w : Nat} (inj : Bool) (hne : d ≠ []) (hw : 0 < w) :
    ∃ r, runStages d (csumSend d w) inj (fun r => csumRecv r w) = .ok r ∧ r.orig = d := by
  obtain ⟨sum, -, hlen, hsend⟩ := csumSend_ok hne hw
  have hrx : 2 * w ≤ (channel (padLeft d w ++ onesComplement sum) inj).length := by
    have := le_padLeft_length hne hw
    rw [channel_length, List.length_append, onesComplement_length, hlen]
    omega
  obtain ⟨x, -, -, hrecv⟩ := csumRecv_ok hw hrx
  exact runStages_completes d hsend hrecv

/-! ### A command by its validation -/

/-- The generator operand of a valid CRC command (R73, R222). -/
theorem exists_generatorIs {e : Engine} {gsup : Bool} (h : e.validate .crc gsup = .ok ()) :
    ∃ g, GeneratorIs gsup e g := by
  obtain ⟨-, -, -, hg⟩ := Engine.operands_of_validate h
  cases gsup with
  | false => exact ⟨_, .inr ⟨rfl, rfl⟩⟩
  | true =>
    obtain ⟨g, hgen, hl⟩ := hg rfl rfl
    exact ⟨g, .inl ⟨rfl, hgen, hl⟩⟩

/-- A command that validation fails has that failure and no other (R121, R222). -/
theorem runInstr_of_validate_error {e : Engine} {t : Technique} {gsup : Bool} {f : Failure} (inj : Bool)
    (h : e.validate t gsup = .error f) : runInstr (t.toInstr inj gsup) e = .error f := by
  cases t <;> simp only [Technique.toInstr, runInstr, vrcRun, lrcRun, crcRun, checksumRun, h] <;> rfl

/-- A command that validation lets pass completes, with the DATA bits in ORIG (R121, R224). -/
theorem runInstr_of_validate_ok {e : Engine} {t : Technique} {gsup : Bool} (inj : Bool)
    (h : e.validate t gsup = .ok ()) :
    ∃ r, runInstr (t.toInstr inj gsup) e = .ok r ∧ e.data = toSymbols r.orig := by
  obtain ⟨d, hd, hne, -⟩ := Engine.operands_of_validate h
  suffices hrun : ∃ r, runInstr (t.toInstr inj gsup) e = .ok r ∧ r.orig = d by
    obtain ⟨r, hr, rfl⟩ := hrun
    exact ⟨r, hr, hd⟩
  cases t with
  | vrc =>
    rw [Technique.toInstr, runInstr, vrcRun_eq_runStages inj h hd]
    exact runStages_completes d rfl rfl
  | lrc =>
    rw [Technique.toInstr, runInstr, lrcRun_eq_runStages inj h hd]
    exact runStages_completes d rfl rfl
  | crc =>
    obtain ⟨g, hg⟩ := exists_generatorIs h
    obtain ⟨hop, hl⟩ := generatorOperand_ok hg
    rw [Technique.toInstr, runInstr, crcRun_eq_runStages inj h hd hop]
    exact crc_stages_complete inj hne hl
  | checksum =>
    rw [Technique.toInstr, runInstr, checksumRun_eq_runStages inj h hd]
    exact checksum_stages_complete inj hne (blockWidth_pos _)

/-! ### A command word by its failure -/

theorem execute_commandWord (t : Technique) (inj gsup : Bool) (e : Engine) :
    execute (commandWord t inj gsup) e = runInstr (t.toInstr inj gsup) e := by
  simp [execute]

/-- The failure of R222 and R74 is the command's outcome. -/
theorem execute_of_failureOf_some {v : Byte} {e : Engine} {f : Failure} (h : failureOf v e = some f) :
    execute v e = .error f := by
  by_cases hv : 16 ≤ v.toNat
  · rw [failureOf, if_pos hv, Option.some.injEq] at h
    simp [execute, decode_of_reserved hv, h]
  · obtain ⟨t, inj, gsup, rfl⟩ := exists_commandWord_eq (Nat.not_le.mp hv)
    rw [execute_commandWord]
    exact runInstr_of_validate_error inj (by rw [e.validate_eq_failureOf t inj, h]; rfl)

/-- A command word to which no failure applies completes, with the DATA bits in ORIG. -/
theorem execute_of_failureOf_none {v : Byte} {e : Engine} (h : failureOf v e = none) :
    ∃ r, execute v e = .ok r ∧ e.data = toSymbols r.orig := by
  by_cases hv : 16 ≤ v.toNat
  · rw [failureOf, if_pos hv] at h
    cases h
  · obtain ⟨t, inj, gsup, rfl⟩ := exists_commandWord_eq (Nat.not_le.mp hv)
    rw [execute_commandWord]
    exact runInstr_of_validate_ok inj (by rw [e.validate_eq_failureOf t inj, h]; rfl)

/-! ### The step -/

/-- A commit of a result leaves R129's registers. -/
theorem Engine.commitSuccess_eq_withResult (e : Engine) (r : CommandResult) :
    e.commitSuccess r = e.withResult r.orig r.tx r.rx r.err := by
  simp [Engine.commitSuccess, Engine.withResult, doneStatus_eq]

/-- A commit of a failure leaves R223's registers. -/
theorem Engine.commitFailure_eq_withFailure (e : Engine) (f : Failure) : e.commitFailure f = e.withFailure f := by
  simp [Engine.commitFailure, Engine.withFailure, failedStatus_eq]

/-- A step that takes a CMD write commits the word's outcome over the new word (R120). -/
theorem stepWith_cmdWrite {s : State} {k : Nat} {v : Byte} {rest : List HostEvent} {e : Engine} (p : Params)
    (hp : s.pending = .access k (.write 0 (.word v)) :: rest) (he : s.engines[k]? = some e) :
    stepWith p s = .next (s.afterAccess k rest (Engine.commit { e with cmd := v } (execute v e))) := by
  rw [stepWith_write p hp he]
  exact onWriteCmd_eq v he

end Sys2Proof.Machine

open Sys2Proof Sys2Proof.Machine

/-- Settles O29: the step commits the word's outcome, which is the failure that `failureOf` assigns it, or else a
result. -/
theorem cmdWriteCommitsFirstFailure : Obligations.CmdWriteCommitsFirstFailure := by
  unfold Obligations.CmdWriteCommitsFirstFailure
  intro p s k v rest e hp he
  rw [stepWith_cmdWrite p hp he]
  refine ⟨fun f hf => ?failed, fun hf => ?completed⟩
  case failed => rw [execute_of_failureOf_some hf, Engine.commit_error, Engine.commitFailure_eq_withFailure]
  case completed =>
    obtain ⟨r, hr, hd⟩ := execute_of_failureOf_none hf
    exact ⟨r.orig, r.tx, r.rx, r.err, hd, by rw [hr, Engine.commit_ok, Engine.commitSuccess_eq_withResult]⟩

end

section
/-! PROOFS. The expansions of the pseudo-instructions, O6 (30_encoding.md), and the reads that return a value, O36
(20_memory.md). -/

namespace Sys2Proof.Machine

/-! ### Pseudo-instructions -/

/-- `run` with either value of INJ: the data, then the command with GSUP = 0 (R80). -/
theorem HostLine.expand_run (t : Technique) (d : List Symbol) (inj : Bool) :
    HostLine.expand (.run t d inj) = HostLine.expand (.wrData d) ++ HostLine.expand (.command t inj false) :=
  rfl

/-- `runcrc` with either value of INJ: the data, the generator, then CRC with GSUP = 1 (R80). -/
theorem HostLine.expand_runcrc (d g : List Symbol) (inj : Bool) :
    HostLine.expand (.runcrc d g inj) =
      HostLine.expand (.wrData d) ++ HostLine.expand (.wrGen g) ++ HostLine.expand (.command .crc inj true) :=
  rfl

/-! ### Reads of a value -/

theorem hostRead_of_readRegister_some {r : HostRegister} {e : Engine} {v : RegValue} (s : State)
    (h : e.readRegister r = some v) : hostRead r.number e s = .next { s with received := s.received ++ [v] } := by
  simp [hostRead, h]

/-- A read of a register that holds a value takes the input, selects the instance and returns the value (R54). -/
theorem stepWith_read_of_some {s : State} {k : Nat} {rest : List HostEvent} {e : Engine} {v : RegValue} (p : Params)
    (r : HostRegister) (hp : s.pending = .access k (.read r.number) :: rest) (he : s.engines[k]? = some e)
    (h : e.readRegister r = some v) :
    stepWith p s = .next { s with sel := k, pending := rest, received := s.received ++ [v] } := by
  rw [stepWith_read p hp he, hostRead_of_readRegister_some _ h]

/-- The bits of a result register as the host reads them (R76). -/
theorem toSymbols_eq_map (b : Bits) : toSymbols b = b.map fun x => if x then 0x31#8 else 0x30#8 :=
  rfl

end Sys2Proof.Machine

open Sys2Proof Sys2Proof.Machine

/-- Settles O6: the two expansions at both values of INJ. -/
theorem pseudoInstructionsExpand : Obligations.PseudoInstructionsExpand := by
  unfold Obligations.PseudoInstructionsExpand
  intro t d g
  exact ⟨HostLine.expand_run t d false, HostLine.expand_run t d true, HostLine.expand_runcrc d g false,
    HostLine.expand_runcrc d g true⟩

/-- Settles O36: the seven reads are one lemma at seven registers. -/
theorem readReturnsWholeRegister : Obligations.ReadReturnsWholeRegister := by
  unfold Obligations.ReadReturnsWholeRegister
  rintro p s k reg rest e v hp he
    (⟨rfl, rfl⟩ | ⟨rfl, rfl⟩ | ⟨rfl, rfl⟩ | ⟨rfl, rfl⟩ | ⟨b, rfl, ⟨rfl, hb⟩ | ⟨rfl, hb⟩ | ⟨rfl, hb⟩⟩)
  · exact stepWith_read_of_some p .cmd hp he rfl
  · exact stepWith_read_of_some p .status hp he rfl
  · exact stepWith_read_of_some p .data hp he rfl
  · exact stepWith_read_of_some p .gen hp he rfl
  · exact stepWith_read_of_some p .orig hp he (by simp [Engine.readRegister, hb, toSymbols_eq_map])
  · exact stepWith_read_of_some p .tx hp he (by simp [Engine.readRegister, hb, toSymbols_eq_map])
  · exact stepWith_read_of_some p .rx hp he (by simp [Engine.readRegister, hb, toSymbols_eq_map])

end

section
/-! PROOFS. The bitwise primitives: xor, the complement and the parity bit; O15, O16, O17 (40_bitarithmetic.md). -/

namespace Sys2Proof.Machine

/-! ### Xor (R100) -/

theorem bitXor_of_length_ne {a b : Bits} (h : a.length ≠ b.length) : bitXor a b = .error .lengthMismatch := by
  simp [bitXor, h]

theorem bitAt_zipWith_bne {a b : Bits} (h : a.length = b.length) (i : Nat) :
    bitAt (List.zipWith (· != ·) a b) i = (bitAt a i != bitAt b i) := by
  by_cases hi : i < a.length
  · have hi' : i < b.length := h ▸ hi
    simp [bitAt, hi, hi']
  · have hi' : ¬i < b.length := h ▸ hi
    simp [bitAt, hi, hi']

/-- A string xored with itself is all zeros (R100). -/
theorem bitXor_self (a : Bits) : bitXor a a = .ok (rep a.length false) := by
  simp [bitXor, rep, List.zipWith_self]

/-- Zeros are neutral for xor (R100). -/
theorem bitXor_zeros (a : Bits) : bitXor a (rep a.length false) = .ok a := by
  have hzip : List.zipWith (· != ·) a (rep a.length false) = a := by
    induction a with
    | nil => rfl
    | cons x a ih => simp [ih]
  rw [bitXor_of_length_eq (by simp), hzip]

/-! ### The complement (R101) -/

@[simp] theorem onesComplement_nil : onesComplement [] = [] := rfl

@[simp] theorem onesComplement_cons (b : Bool) (s : Bits) : onesComplement (b :: s) = (!b) :: onesComplement s := rfl

theorem bitAt_onesComplement {s : Bits} {i : Nat} (h : i < s.length) : bitAt (onesComplement s) i = !bitAt s i := by
  simp [bitAt, onesComplement, flipBit, h]

@[simp] theorem onesComplement_onesComplement (s : Bits) : onesComplement (onesComplement s) = s := by
  induction s with
  | nil => rfl
  | cons b s ih => simp [ih]

/-- A string and its complement fill the width with ones. -/
theorem val_add_val_onesComplement (s : Bits) : val s + val (onesComplement s) + 1 = 2 ^ s.length := by
  induction s with
  | nil => rfl
  | cons b s ih => cases b <;> simp [val, Nat.pow_succ] <;> omega

/-! ### Parity (R102) -/

theorem parity_eq_true_iff (s : Bits) : parity s = true ↔ count1 s % 2 = 1 := by
  induction s with
  | nil => simp [count1]
  | cons b s ih =>
    unfold count1 at ih ⊢
    cases b with
    | false => simpa using ih
    | true =>
      rw [parity_cons, List.count_cons_self, Bool.true_bne, Bool.not_eq_true', ← Bool.not_eq_true, ih]
      omega

theorem parity_append (a b : Bits) : parity (a ++ b) = (parity a != parity b) := by
  induction a with
  | nil => simp
  | cons x a ih => simp [ih]

end Sys2Proof.Machine

open Sys2Proof Sys2Proof.Machine

/-- Settles O15: the string of R100 is the operands' bits xored in pairs. -/
theorem xorBitByBit : Obligations.XorBitByBit := by
  unfold Obligations.XorBitByBit
  intro a b
  exact ⟨bitXor_of_length_ne,
    fun h => ⟨_, bitXor_of_length_eq h, by simp [h], fun i _ => bitAt_zipWith_bne h i⟩,
    bitXor_self a, bitXor_zeros a⟩

/-- Settles O16: the value is what the string leaves of all ones. -/
theorem onesComplementFlipsEveryBit : Obligations.OnesComplementFlipsEveryBit := by
  unfold Obligations.OnesComplementFlipsEveryBit
  intro s
  have hval := val_add_val_onesComplement s
  exact ⟨onesComplement_length s, fun _ => bitAt_onesComplement, onesComplement_onesComplement s, by omega⟩

/-- Settles O17: appending the parity bit xors the parity with itself. -/
theorem parityCountsOnes : Obligations.ParityCountsOnes := by
  unfold Obligations.ParityCountsOnes
  intro a b
  exact ⟨parity_eq_true_iff a, by simp [parity_append], parity_append a b, parity_nil⟩

end

section
/-! PROOFS. The fixed-width adder by the values of its operands; O18 (40_bitarithmetic.md). -/

namespace Sys2Proof.Machine

/-! ### Values -/

@[simp] theorem val_nil : val [] = 0 := rfl

theorem val_cons (b : Bool) (s : Bits) : val (b :: s) = b.toNat * 2 ^ s.length + val s := rfl

/-- A string of a given width is fixed by its value. -/
theorem eq_of_val_eq {a b : Bits} (hl : a.length = b.length) (hv : val a = val b) : a = b := by
  induction a generalizing b with
  | nil => exact (List.length_eq_zero_iff.mp hl.symm).symm
  | cons x a ih =>
    cases b with
    | nil => simp at hl
    | cons y b =>
      have hlen : a.length = b.length := by simpa using hl
      have ha := val_lt a
      have hb := val_lt b
      rw [val_cons, val_cons, hlen] at hv
      rw [hlen] at ha
      have hxy : x = y := by cases x <;> cases y <;> simp at hv ⊢ <;> omega
      subst hxy
      rw [ih hlen (by omega)]

/-- `binW` reads back as its number, cut to the width (R10). -/
theorem val_binW (w v : Nat) : val (binW w v) = v % 2 ^ w := by
  induction w with
  | zero => simp [binW, Nat.mod_one]
  | succ w ih => rw [binW, val_cons, binW_length, ih, Nat.toNat_testBit, Nat.mod_pow_succ, Nat.mul_comm, Nat.add_comm]

theorem val_rep_false (k : Nat) : val (rep k false) = 0 := by
  induction k with
  | zero => rfl
  | succ k ih => simp [val_cons, ih]

theorem val_rep_true (k : Nat) : val (rep k true) + 1 = 2 ^ k := by
  induction k with
  | zero => rfl
  | succ k ih => simp [val_cons, Nat.pow_succ]; omega

/-! ### The adder (R103) -/

theorem fixedWidthIncrement_of_length_ne {a b : Bits} (h : a.length ≠ b.length) :
    fixedWidthIncrement a b = .error .lengthMismatch := by
  simp [fixedWidthIncrement, h]

/-- The full adder of one position: the sum bit and the carry make up the three bits' sum. -/
theorem fullAdder_toNat (x y c : Bool) :
    ((x.toNat + y.toNat + c.toNat) % 2 == 1).toNat + 2 * ((x.toNat + y.toNat + c.toNat) / 2 == 1).toNat =
      x.toNat + y.toNat + c.toNat := by
  cases x <;> cases y <;> cases c <;> rfl

/-- The ripple is unsigned addition, its carry-out worth 2^w. -/
theorem val_ripple {a b : Bits} (h : a.length = b.length) :
    val (ripple a b).1 + (ripple a b).2.toNat * 2 ^ a.length = val a + val b := by
  induction a generalizing b with
  | nil =>
    obtain rfl := List.length_eq_zero_iff.mp h.symm
    rfl
  | cons x a ih =>
    cases b with
    | nil => simp at h
    | cons y b =>
      have hlen : a.length = b.length := by simpa using h
      have hrest := ih hlen
      have hbit := congrArg (· * 2 ^ a.length) (fullAdder_toNat x y (ripple a b).2)
      simp only [ripple, val_cons, ripple_length hlen, List.length_cons, Nat.pow_succ, ← hlen]
      linarith

/-- A sum of w bits and a carry are fixed by their joint value. -/
theorem eq_of_val_add_carry_eq {s t : Bits} {c d : Bool} (hl : s.length = t.length)
    (hv : val s + c.toNat * 2 ^ s.length = val t + d.toNat * 2 ^ s.length) : s = t ∧ c = d := by
  have hs := val_lt s
  have ht := hl ▸ val_lt t
  have hcd : c = d := by cases c <;> cases d <;> simp at hv ⊢ <;> omega
  subst hcd
  exact ⟨eq_of_val_eq hl (by omega), rfl⟩

/-- All of R103: what the adder answers is fixed by the widths and the values. -/
theorem fixedWidthIncrement_eq_ok_iff {a b s : Bits} {c : Bool} :
    fixedWidthIncrement a b = .ok (s, c) ↔
      a.length = b.length ∧ s.length = a.length ∧ val s + c.toNat * 2 ^ a.length = val a + val b := by
  by_cases h : a.length = b.length
  · rw [fixedWidthIncrement_of_length_eq h]
    constructor
    · intro hr
      have hpair : ripple a b = (s, c) := Except.ok.inj hr
      have hlen := ripple_length h
      have hval := val_ripple h
      rw [hpair] at hlen hval
      exact ⟨h, hlen, hval⟩
    · rintro ⟨-, hlen, hval⟩
      have hl : (ripple a b).1.length = s.length := (ripple_length h).trans hlen.symm
      obtain ⟨hs, hc⟩ := eq_of_val_add_carry_eq (c := (ripple a b).2) (d := c) hl
        (by rw [ripple_length h, val_ripple h, hval])
      rw [← hs, ← hc]
  · simp [fixedWidthIncrement_of_length_ne h, h]

/-- The carry-out tells whether the sum overflows the width. -/
theorem carry_iff_overflow {a b s : Bits} {c : Bool} (h : fixedWidthIncrement a b = .ok (s, c)) :
    c = true ↔ 2 ^ a.length ≤ val a + val b := by
  obtain ⟨-, hlen, hval⟩ := fixedWidthIncrement_eq_ok_iff.mp h
  have hs := val_lt s
  rw [hlen] at hs
  cases c <;> simp at hval ⊢ <;> omega

end Sys2Proof.Machine

open Sys2Proof Sys2Proof.Machine

/-- Settles O18: the ripple's sum and carry, by their values. -/
theorem adderIsUnsignedAddition : Obligations.AdderIsUnsignedAddition := by
  unfold Obligations.AdderIsUnsignedAddition
  intro a b
  refine ⟨fixedWidthIncrement_of_length_ne, fun h => ?_⟩
  have hr := fixedWidthIncrement_of_length_eq h
  exact ⟨_, _, hr, ripple_length h, val_ripple h, carry_iff_overflow hr⟩

end

section
/-! PROOFS. End-around-carry addition by the values of its operands; O19 (40_bitarithmetic.md). -/

namespace Sys2Proof.Machine

/-! ### The wrap loop -/

/-- A sum that carried leaves room for the carry, so adding it does not carry again. -/
theorem exists_wrap_of_carry {a b s : Bits} (h : fixedWidthIncrement a b = .ok (s, true)) :
    ∃ s', fixedWidthIncrement s (binW s.length 1) = .ok (s', false) ∧ val s' = val s + 1 := by
  obtain ⟨hab, hlen, hval⟩ := fixedWidthIncrement_eq_ok_iff.mp h
  have ha := val_lt a
  have hb := val_lt b
  rw [← hab] at hb
  rw [Bool.toNat_true, Nat.one_mul] at hval
  have hroom : val s + 1 < 2 ^ s.length := by rw [hlen]; omega
  have hone : val (binW s.length 1) = 1 := by rw [val_binW, Nat.mod_eq_of_lt (by omega)]
  have hsum : val (binW s.length (val s + 1)) = val s + 1 := by rw [val_binW, Nat.mod_eq_of_lt hroom]
  refine ⟨binW s.length (val s + 1), fixedWidthIncrement_eq_ok_iff.mpr ⟨by simp, by simp, ?_⟩, hsum⟩
  rw [hsum, hone, Bool.toNat_false, Nat.zero_mul, Nat.add_zero]

@[simp] theorem wrapCarry_false (fuel : Nat) (s : Bits) : wrapCarry fuel (s, false) = .ok s := by
  cases fuel <;> rfl

/-- One turn ends the loop once the wrapped sum does not carry. -/
theorem wrapCarry_succ_of_wrap {s s' : Bits} (h : fixedWidthIncrement s (binW s.length 1) = .ok (s', false))
    (fuel : Nat) : wrapCarry (fuel + 1) (s, true) = .ok s' := by
  rw [wrapCarry, h]
  exact wrapCarry_false fuel s'

theorem eacAdd_of_length_ne {a b : Bits} (h : a.length ≠ b.length) : eacAdd a b = .error .lengthMismatch := by
  rw [eacAdd, fixedWidthIncrement_of_length_ne h]
  rfl

theorem eacAdd_of_not_carry {a b s : Bits} (h : fixedWidthIncrement a b = .ok (s, false)) : eacAdd a b = .ok s := by
  rw [eacAdd, h]
  rfl

theorem eacAdd_of_carry {a b s s' : Bits} (h : fixedWidthIncrement a b = .ok (s, true))
    (hw : fixedWidthIncrement s (binW s.length 1) = .ok (s', false)) : eacAdd a b = .ok s' := by
  rw [eacAdd, h]
  exact wrapCarry_succ_of_wrap hw 1

/-! ### The value (R104) -/

/-- What end-around carry makes of a sum `n` at width `w`: a carry-out of 2^w comes back as 1. -/
def eacFold (w n : Nat) : Nat := if n < 2 ^ w then n else n - 2 ^ w + 1

theorem eacFold_of_lt {w n : Nat} (h : n < 2 ^ w) : eacFold w n = n := if_pos h

theorem eacFold_of_le {w n : Nat} (h : 2 ^ w ≤ n) : eacFold w n = n - 2 ^ w + 1 := if_neg (Nat.not_lt.mpr h)

/-- The end-around carry takes off 2^w - 1, which the residue does not see. -/
theorem eacFold_mod (w n : Nat) : eacFold w n % (2 ^ w - 1) = n % (2 ^ w - 1) := by
  rcases Nat.lt_or_ge n (2 ^ w) with h | h
  · rw [eacFold_of_lt h]
  · have hpos : 0 < 2 ^ w := Nat.two_pow_pos w
    rw [eacFold_of_le h, show n - 2 ^ w + 1 = n - (2 ^ w - 1) by omega, ← Nat.mod_eq_sub_mod (by omega)]

theorem eacFold_eq_zero_iff (w n : Nat) : eacFold w n = 0 ↔ n = 0 := by
  rcases Nat.lt_or_ge n (2 ^ w) with h | h
  · rw [eacFold_of_lt h]
  · have hpos : 0 < 2 ^ w := Nat.two_pow_pos w
    rw [eacFold_of_le h]
    omega

/-- The value of an end-around-carry sum is the folded sum of the values. -/
theorem val_of_eacAdd {a b r : Bits} (h : a.length = b.length) (hr : eacAdd a b = .ok r) :
    val r = eacFold a.length (val a + val b) := by
  have hadd := fixedWidthIncrement_of_length_eq h
  generalize ripple a b = sum at hadd
  obtain ⟨s, c⟩ := sum
  obtain ⟨-, -, hval⟩ := fixedWidthIncrement_eq_ok_iff.mp hadd
  have hover := carry_iff_overflow hadd
  cases c with
  | false =>
    rw [eacAdd_of_not_carry hadd] at hr
    cases hr
    rw [eacFold_of_lt (by simpa using hover)]
    simpa using hval
  | true =>
    obtain ⟨s', hwrap, hs'⟩ := exists_wrap_of_carry hadd
    rw [eacAdd_of_carry hadd hwrap] at hr
    cases hr
    rw [eacFold_of_le (by simpa using hover), hs', ← hval]
    simp

/-- All of R104: what end-around-carry addition answers is fixed by the width and the values. -/
theorem eacAdd_eq_ok_iff {a b r : Bits} (h : a.length = b.length) :
    eacAdd a b = .ok r ↔ r.length = a.length ∧ val r = eacFold a.length (val a + val b) := by
  obtain ⟨t, ht, hlen⟩ := eacAdd_ok h
  have hval := val_of_eacAdd h ht
  constructor
  · intro hr
    obtain rfl : t = r := Except.ok.inj (ht.symm.trans hr)
    exact ⟨hlen, hval⟩
  · rintro ⟨hrl, hrv⟩
    rw [ht, eq_of_val_eq (hlen.trans hrl.symm) (hval.trans hrv.symm)]

/-! ### Laws -/

theorem eacAdd_comm {a b : Bits} (h : a.length = b.length) : eacAdd a b = eacAdd b a := by
  obtain ⟨r, hr, hlen⟩ := eacAdd_ok h
  rw [hr, eq_comm, eacAdd_eq_ok_iff h.symm, val_of_eacAdd h hr, ← h, Nat.add_comm (val b)]
  exact ⟨hlen, rfl⟩

theorem eacAdd_zeros_left (b : Bits) : eacAdd (rep b.length false) b = .ok b := by
  rw [eacAdd_eq_ok_iff (by simp), rep_length, val_rep_false, Nat.zero_add, eacFold_of_lt (val_lt b)]
  exact ⟨rfl, rfl⟩

/-- A block and its complement add up to all ones, without a carry. -/
theorem eacAdd_onesComplement (a : Bits) : eacAdd a (onesComplement a) = .ok (rep a.length true) := by
  have hfull := val_add_val_onesComplement a
  have hones := val_rep_true a.length
  rw [eacAdd_eq_ok_iff (by simp), eacFold_of_lt (by omega)]
  exact ⟨rep_length _ _, by omega⟩

end Sys2Proof.Machine

open Sys2Proof Sys2Proof.Machine

/-- Settles O19: the adder's value law, one wrap at most, and the folded sum of the values. -/
theorem endAroundCarryLaws : Obligations.EndAroundCarryLaws := by
  unfold Obligations.EndAroundCarryLaws
  refine ⟨fun a b => eacAdd_of_length_ne, fun a b h _ =>
    ⟨fun s hs => ?wrap, fun s => eacAdd_of_not_carry, ?result, eacAdd_comm h, ?zeros, eacAdd_onesComplement a⟩⟩
  case wrap =>
    obtain ⟨-, hlen, -⟩ := fixedWidthIncrement_eq_ok_iff.mp hs
    obtain ⟨s', hwrap, -⟩ := exists_wrap_of_carry hs
    exact ⟨s', hlen ▸ hwrap, eacAdd_of_carry hs hwrap⟩
  case result =>
    obtain ⟨r, hr, hlen⟩ := eacAdd_ok h
    have hlt := val_lt r
    rw [hlen] at hlt
    refine ⟨r, hr, hlen, Nat.le_sub_one_of_lt hlt, ?residue, ?zero⟩
    case residue => rw [val_of_eacAdd h hr, eacFold_mod]
    case zero => rw [val_of_eacAdd h hr, eacFold_eq_zero_iff, Nat.add_eq_zero_iff]
  case zeros => rw [h]; exact eacAdd_zeros_left b

end

section
/-! PROOFS. The framing arithmetic, the parts of a completed command, and what its outcome depends on; O9, O10, O12,
O13, O14 (41_invocation.md). -/

namespace Sys2Proof.Machine

/-! ### Padding (R124) -/

theorem padAmount_lt {w : Nat} (n : Nat) (hw : 0 < w) : padAmount n w < w := by
  unfold padAmount
  split <;> omega

/-- No smaller multiple of the width holds the data: the next one down is a whole width below. -/
theorem add_padAmount_le {n m w : Nat} (hw : 0 < w) (hnm : n ≤ m) (hm : m % w = 0) : n + padAmount n w ≤ m := by
  by_contra hlt
  have hgap : w ∣ n + padAmount n w - m :=
    Nat.dvd_sub (Nat.dvd_of_mod_eq_zero (padAmount_mod n hw)) (Nat.dvd_of_mod_eq_zero hm)
  have hle : w ≤ n + padAmount n w - m := Nat.le_of_dvd (by omega) hgap
  have hpad := padAmount_lt n hw
  omega

/-- The fill as a remainder of its own. -/
theorem padAmount_eq_mod {w : Nat} (n : Nat) (hw : 0 < w) : padAmount n w = (w - n % w) % w := by
  unfold padAmount
  split
  · next h => simp [h]
  · next h => exact (Nat.mod_eq_of_lt (by omega)).symm

theorem rep_padAmount (n : Nat) {w : Nat} (hw : 0 < w) : rep (padAmount n w) false = frameZeros n w := by
  rw [rep, frameZeros, padAmount_eq_mod n hw]

/-- LRC's padded data: the zeros to the right (R125). -/
theorem padRight_eq_frameZeros (d : Bits) {w : Nat} (hw : 0 < w) : padRight d w = d ++ frameZeros d.length w := by
  rw [padRight, rep_padAmount _ hw]

/-- Checksum's padded data: the zeros to the left (R126). -/
theorem padLeft_eq_frameZeros (d : Bits) {w : Nat} (hw : 0 < w) : padLeft d w = frameZeros d.length w ++ d := by
  rw [padLeft, rep_padAmount _ hw]

theorem length_le_padRight_length (d : Bits) (w : Nat) : d.length ≤ (padRight d w).length := by
  simp [padRight]

theorem length_le_padLeft_length (d : Bits) (w : Nat) : d.length ≤ (padLeft d w).length := by
  simp [padLeft]

/-! ### The parts of a completed command -/

/-- A result whose ORIG is the DATA bits, whose TX is `processed` and a check field of `width` bits, and whose RX is TX
past the channel (R121, R127, R128). -/
structure CommandResult.Frames (r : CommandResult) (e : Engine) (inj : Bool) (processed : Bits) (width : Nat) :
    Prop where
  data : e.data = toSymbols r.orig
  orig_ne_nil : r.orig ≠ []
  tx : ∃ red, r.tx = processed ++ red ∧ red.length = width
  rx : r.rx = channel r.tx inj

/-- A check field of a bit or more makes TX longer than ORIG. -/
theorem CommandResult.Frames.orig_length_lt {r : CommandResult} {e : Engine} {inj : Bool} {processed : Bits}
    {width : Nat} (h : r.Frames e inj processed width) (hp : r.orig.length ≤ processed.length) (hw : 0 < width) :
    r.orig.length < r.tx.length := by
  obtain ⟨red, htx, hred⟩ := h.tx
  rw [htx, List.length_append]
  omega

/-- Stages that answer leave the string that was sent in TX and its passage through the channel in RX (R121). -/
theorem frames_of_runStages {e : Engine} {d processed red : Bits} {send : Except Failure Bits} {inj : Bool}
    {recv : Bits → Except Failure Bool} {r : CommandResult} (hd : e.data = toSymbols d) (hne : d ≠ [])
    (hs : send = .ok (processed ++ red)) (h : runStages d send inj recv = .ok r) :
    r.orig = d ∧ r.Frames e inj processed red.length := by
  obtain ⟨tx, err, htx, -, rfl⟩ := runStages_ok_iff.mp h
  cases hs.symm.trans htx
  exact ⟨rfl, hd, hne, ⟨red, rfl, rfl⟩, rfl⟩

/-- Only a valid command completes (R121, R222). -/
theorem validate_of_runInstr_ok {t : Technique} {inj gsup : Bool} {e : Engine} {r : CommandResult}
    (h : runInstr (t.toInstr inj gsup) e = .ok r) : e.validate t gsup = .ok () := by
  cases hv : e.validate t gsup with
  | ok => rfl
  | error f => rw [runInstr_of_validate_error inj hv] at h; cases h

theorem frames_of_vrc_ok {inj gsup : Bool} {e : Engine} {r : CommandResult}
    (h : runInstr (.vrc inj gsup) e = .ok r) : r.Frames e inj r.orig 1 := by
  have hv := validate_of_runInstr_ok (t := .vrc) h
  obtain ⟨d, hd, hne, -⟩ := Engine.operands_of_validate hv
  rw [runInstr, vrcRun_eq_runStages inj hv hd] at h
  obtain ⟨rfl, hf⟩ := frames_of_runStages hd hne rfl h
  exact hf

theorem frames_of_lrc_ok {inj gsup : Bool} {e : Engine} {r : CommandResult} (h : runInstr (.lrc inj gsup) e = .ok r) :
    r.Frames e inj (padRight r.orig (blockWidth r.orig.length)) (blockWidth r.orig.length) := by
  have hv := validate_of_runInstr_ok (t := .lrc) h
  obtain ⟨d, hd, hne, -⟩ := Engine.operands_of_validate hv
  rw [runInstr, lrcRun_eq_runStages inj hv hd] at h
  obtain ⟨rfl, hf⟩ := frames_of_runStages hd hne rfl h
  rwa [colParity_length] at hf

theorem frames_of_crc_ok {inj gsup : Bool} {e : Engine} {r : CommandResult} (h : runInstr (.crc inj gsup) e = .ok r) :
    ∃ g, GeneratorIs gsup e g ∧ r.Frames e inj r.orig (g.length - 1) := by
  have hv := validate_of_runInstr_ok (t := .crc) h
  obtain ⟨d, hd, hne, -⟩ := Engine.operands_of_validate hv
  obtain ⟨g, hg⟩ := exists_generatorIs hv
  obtain ⟨hop, hl⟩ := generatorOperand_ok hg
  obtain ⟨rem, -, hrem, hsend⟩ := crcSend_ok hne (Nat.one_le_of_lt hl)
  rw [runInstr, crcRun_eq_runStages inj hv hd hop] at h
  obtain ⟨rfl, hf⟩ := frames_of_runStages hd hne hsend h
  exact ⟨g, hg, hrem ▸ hf⟩

theorem frames_of_checksum_ok {inj gsup : Bool} {e : Engine} {r : CommandResult}
    (h : runInstr (.checksum inj gsup) e = .ok r) :
    r.Frames e inj (padLeft r.orig (blockWidth r.orig.length)) (blockWidth r.orig.length) := by
  have hv := validate_of_runInstr_ok (t := .checksum) h
  obtain ⟨d, hd, hne, -⟩ := Engine.operands_of_validate hv
  obtain ⟨sum, -, hsum, hsend⟩ := csumSend_ok hne (blockWidth_pos d.length)
  rw [runInstr, checksumRun_eq_runStages inj hv hd] at h
  obtain ⟨rfl, hf⟩ := frames_of_runStages hd hne hsend h
  rwa [onesComplement_length, hsum] at hf

/-- What all completed commands share: the DATA bits in ORIG, a longer TX, and RX past the channel (R26 to R28). -/
theorem runInstr_ok_result {i : Instr} {e : Engine} {r : CommandResult} (h : runInstr i e = .ok r) :
    e.data = toSymbols r.orig ∧ r.orig ≠ [] ∧ r.orig.length < r.tx.length ∧ r.rx = channel r.tx (instrInj i) := by
  cases i with
  | vrc inj gsup =>
    have hf := frames_of_vrc_ok h
    exact ⟨hf.data, hf.orig_ne_nil, hf.orig_length_lt le_rfl one_pos, hf.rx⟩
  | lrc inj gsup =>
    have hf := frames_of_lrc_ok h
    exact ⟨hf.data, hf.orig_ne_nil, hf.orig_length_lt (length_le_padRight_length _ _) (blockWidth_pos _), hf.rx⟩
  | crc inj gsup =>
    obtain ⟨g, hg, hf⟩ := frames_of_crc_ok h
    have hl := (generatorOperand_ok hg).2
    exact ⟨hf.data, hf.orig_ne_nil, hf.orig_length_lt le_rfl (by omega), hf.rx⟩
  | checksum inj gsup =>
    have hf := frames_of_checksum_ok h
    exact ⟨hf.data, hf.orig_ne_nil, hf.orig_length_lt (length_le_padLeft_length _ _) (blockWidth_pos _), hf.rx⟩

/-- The length of the generator operand (R73). -/
theorem GeneratorIs.length_eq {gsup : Bool} {e : Engine} {g : Bits} (h : GeneratorIs gsup e g) :
    g.length = if gsup then e.gen.length else 4 := by
  obtain ⟨rfl, hgen, -⟩ | ⟨rfl, rfl⟩ := h
  · simp [hgen]
  · rfl

/-! ### Command words -/

/-- A command word that completes is a legal one, and its instruction completes (R77, R121). -/
theorem exists_runInstr_of_execute_ok {v : Byte} {e : Engine} {r : CommandResult} (h : execute v e = .ok r) :
    ∃ i, decode v = .ok i ∧ runInstr i e = .ok r := by
  unfold execute at h
  split at h
  · cases h
  · next i hi => exact ⟨i, hi, h⟩

@[simp] theorem instrInj_toInstr (t : Technique) (inj gsup : Bool) : instrInj (t.toInstr inj gsup) = inj := by
  cases t <;> rfl

/-- The decoder takes INJ from CMD[2] (R72). -/
theorem instrInj_of_decode {v : Byte} {i : Instr} (h : decode v = .ok i) : instrInj i = cmdInj v := by
  unfold decode at h
  split at h <;> cases h
  exact instrInj_toInstr _ _ _

/-- What a completed command word leaves in ORIG, TX and RX (R26 to R28, R127). -/
theorem execute_ok_result {v : Byte} {e : Engine} {r : CommandResult} (h : execute v e = .ok r) :
    e.data = toSymbols r.orig ∧ r.orig ≠ [] ∧ r.orig.length < r.tx.length ∧
      r.rx = if cmdInj v then firstFlipped r.tx else r.tx := by
  obtain ⟨i, hi, hr⟩ := exists_runInstr_of_execute_ok h
  obtain ⟨hdata, hne, hlt, hrx⟩ := runInstr_ok_result hr
  exact ⟨hdata, hne, hlt, by rw [hrx, instrInj_of_decode hi, channel_eq]⟩

/-! ### What the outcome depends on (R131) -/

/-- No register but DATA and GEN has a part in a command's outcome. -/
theorem runInstr_congr {e e' : Engine} (i : Instr) (hd : e.data = e'.data) (hg : e.gen = e'.gen) :
    runInstr i e = runInstr i e' := by
  obtain ⟨_, _, data, gen, _, _, _⟩ := e
  obtain rfl : data = e'.data := hd
  obtain rfl : gen = e'.gen := hg
  cases i <;> rfl

/-- GEN has a part in CRC with GSUP = 1 only (R73). -/
theorem runInstr_gen_unread {t : Technique} {gsup : Bool} (inj : Bool) (e : Engine) (gen : List Symbol)
    (h : ¬(t = .crc ∧ gsup = true)) :
    runInstr (t.toInstr inj gsup) { e with gen := gen } = runInstr (t.toInstr inj gsup) e := by
  obtain ⟨vrc, lrc, checksum, crc, -⟩ := gsupSelectsTheGenerator inj gsup e gen
  obtain ⟨vrc', lrc', checksum', -⟩ := gsupSelectsTheGenerator inj gsup e e.gen
  cases t with
  | vrc => exact vrc.trans vrc'.symm
  | lrc => exact lrc.trans lrc'.symm
  | checksum => exact checksum.trans checksum'.symm
  | crc =>
    obtain rfl : gsup = false := by simpa using h
    exact crc

end Sys2Proof.Machine

open Sys2Proof Sys2Proof.Machine

/-- Settles O10: the fill stays below the width and ends on a multiple of it, so a smaller multiple would be a whole
width down, below the data. -/
theorem framingArithmetic : Obligations.FramingArithmetic := by
  unfold Obligations.FramingArithmetic
  exact ⟨blockWidth_eq, fun n w hw => ⟨padAmount_lt n hw, padAmount_mod n hw, rfl, fun m => add_padAmount_le hw⟩⟩

/-- Settles O12: RX is TX past the channel, and TX is longer than the non-empty ORIG. -/
theorem channelFlipsOnlyBitZero : Obligations.ChannelFlipsOnlyBitZero := by
  unfold Obligations.ChannelFlipsOnlyBitZero
  intro v e r h
  obtain ⟨-, hne, hlt, hrx⟩ := execute_ok_result h
  have hpos : 0 < r.orig.length := List.length_pos_iff.mpr hne
  exact ⟨by omega, hrx⟩

/-- Settles O13: each technique's sender appends its check field to its processed data. -/
theorem transmittedIsDataThenCheckField : Obligations.TransmittedIsDataThenCheckField := by
  unfold Obligations.TransmittedIsDataThenCheckField
  intro i e r h
  refine ⟨(runInstr_ok_result h).1, ?parts⟩
  cases i with
  | vrc inj gsup =>
    obtain ⟨red, htx, hred⟩ := (frames_of_vrc_ok h).tx
    exact ⟨_, red, htx, rfl, hred⟩
  | lrc inj gsup =>
    obtain ⟨red, htx, hred⟩ := (frames_of_lrc_ok h).tx
    exact ⟨_, red, htx, padRight_eq_frameZeros _ (blockWidth_pos _), hred⟩
  | crc inj gsup =>
    obtain ⟨g, hg, hf⟩ := frames_of_crc_ok h
    obtain ⟨red, htx, hred⟩ := hf.tx
    have hl := (generatorOperand_ok hg).2
    exact ⟨_, red, htx, rfl, by rw [← hg.length_eq]; omega⟩
  | checksum inj gsup =>
    obtain ⟨red, htx, hred⟩ := (frames_of_checksum_ok h).tx
    exact ⟨_, red, htx, padLeft_eq_frameZeros _ (blockWidth_pos _), hred⟩

/-- Settles O9: the step commits the word's outcome, a result or a failure. -/
theorem cmdWriteRunsOneCommand : Obligations.CmdWriteRunsOneCommand := by
  unfold Obligations.CmdWriteRunsOneCommand
  intro p s k v rest e hp he
  rw [stepWith_cmdWrite p hp he]
  refine ⟨fun r hr => ?completed, fun f hf => ?failed⟩
  case completed => rw [hr, Engine.commit_ok, Engine.commitSuccess_eq_withResult]
  case failed => rw [hf, Engine.commit_error, Engine.commitFailure_eq_withFailure]

/-- Settles O14: a reserved word fails whatever the operands; a legal one reads DATA, and GEN in CRC with GSUP = 1
only. -/
theorem outcomeDependsOnlyOnOperands : Obligations.OutcomeDependsOnlyOnOperands := by
  unfold Obligations.OutcomeDependsOnlyOnOperands
  intro v e e' hd hg
  by_cases hv : 16 ≤ v.toNat
  · simp [execute, decode_of_reserved hv]
  · obtain ⟨t, inj, gsup, rfl⟩ := exists_commandWord_eq (Nat.not_le.mp hv)
    rw [commandWord_reads_gen_iff] at hg
    rw [execute_commandWord, execute_commandWord]
    by_cases hreads : t = .crc ∧ gsup = true
    · exact runInstr_congr _ hd (hg hreads)
    · rw [← runInstr_gen_unread inj e e'.gen hreads]
      exact runInstr_congr _ hd rfl

end

section
/-! PROOFS. The commit of a command that completes; the VRC receiver is the parity of the string received; O21
(42_vrc.md). -/

namespace Sys2Proof.Machine

/-! ### A command that completes -/

/-- A command whose stages answer commits their strings and the verdict (R121, R129). -/
theorem exec_of_runStages {i : Instr} {s : State} {e : Engine} {d tx : Bits} {send : Except Failure Bits} {inj : Bool}
    {recv : Bits → Except Failure Bool} {err : Bool} (hs : s.selected = some e)
    (hrun : runInstr i e = runStages d send inj recv) (hsend : send = .ok tx)
    (hrecv : recv (channel tx inj) = .ok err) :
    exec i s = .next (s.setSelected (e.withResult d tx (if inj then firstFlipped tx else tx) err)) := by
  have hok := hrun.trans (runStages_ok_iff.mpr ⟨tx, err, hsend, hrecv, rfl⟩)
  rw [exec_eq_command, State.command_some hs, hok, Engine.commit_ok, Engine.commitSuccess_eq_withResult, channel_eq]

/-! ### Parity past the channel -/

theorem parity_eq_decide (s : Bits) : parity s = decide (count1 s % 2 = 1) :=
  Bool.eq_iff_iff.mpr ((parity_eq_true_iff s).trans decide_eq_true_iff.symm)

theorem parity_eq_false_iff (s : Bits) : parity s = false ↔ count1 s % 2 = 0 := by
  rw [parity_eq_decide, decide_eq_false_iff_not, ← ne_eq, Nat.mod_two_ne_one]

/-- The channel's one flip changes the parity (R142's corner case). -/
theorem parity_channel {s : Bits} (inj : Bool) (hne : s ≠ []) : parity (channel s inj) = (inj != parity s) := by
  cases s with
  | nil => contradiction
  | cons b s => cases inj <;> simp [channel_eq, firstFlipped]

/-! ### The sender and the receiver -/

/-- The string sent has even parity (R140). -/
@[simp] theorem parity_vrcSend (d : Bits) : parity (vrcSend d) = false := by
  simp [vrcSend, parity_append]

theorem vrcRecv_append_singleton (s : Bits) (b : Bool) : vrcRecv (s ++ [b]) = (parity s != b) := by
  have hlast : bitAt (s ++ [b]) s.length = b := bitAt_append_right s [b] 0
  simp [vrcRecv, slice, hlast]

/-- The receiver's verdict is the parity of the string received (R141). -/
theorem vrcRecv_eq_parity {r : Bits} (hne : r ≠ []) : vrcRecv r = parity r := by
  obtain ⟨s, b, rfl⟩ := (List.eq_nil_or_concat' r).resolve_left hne
  rw [vrcRecv_append_singleton, parity_append]
  simp

/-- The verdict on what was sent is INJ (R142's corner cases). -/
theorem vrcRecv_channel_vrcSend (d : Bits) (inj : Bool) : vrcRecv (channel (vrcSend d) inj) = inj := by
  have hne : vrcSend d ≠ [] := by simp [vrcSend]
  have hrx : channel (vrcSend d) inj ≠ [] := by simp [← List.length_pos_iff, vrcSend]
  rw [vrcRecv_eq_parity hrx, parity_channel inj hne, parity_vrcSend, Bool.bne_false]

end Sys2Proof.Machine

open Sys2Proof Sys2Proof.Machine

/-- Settles O21: the string sent has even parity, and the receiver's verdict is the parity past the channel, that is
INJ. -/
theorem vrcCompletes : Obligations.VrcCompletes := by
  unfold Obligations.VrcCompletes
  intro inj gsup s e d hs hd hne
  have hv : e.validate .vrc gsup = .ok () := Engine.validate_of_operands .vrc gsup hd hne nofun
  refine ⟨vrcSend d, ?bit, ?length, ?even, ?next⟩
  case bit => rw [vrcSend, parity_eq_decide]
  case length => simp [vrcSend]
  case even => exact (parity_eq_false_iff _).mp (parity_vrcSend d)
  case next =>
    exact exec_of_runStages hs (vrcRun_eq_runStages inj hv hd) rfl (congrArg Except.ok (vrcRecv_channel_vrcSend d inj))

end

section
/-! PROOFS. Column parity, lane by lane and as the xor of the blocks; O25 (43_lrc.md). -/

namespace Sys2Proof.Machine

/-- Lane `c` reads bit `c` of every block (R150). -/
theorem bitAt_colParity (blocks : List Bits) {w c : Nat} (hc : c < w) :
    bitAt (colParity blocks w) c = parity (blocks.map fun b => bitAt b c) := by
  simp [bitAt, colParity, hc]

@[simp] theorem colParity_nil (w : Nat) : colParity [] w = rep w false := by
  simp [colParity, rep]

/-- One more block is one more xor into the lanes. -/
theorem colParity_cons {b : Bits} {w : Nat} (blocks : List Bits) (hb : b.length = w) :
    colParity (b :: blocks) w = List.zipWith (· != ·) b (colParity blocks w) := by
  refine List.ext_getElem (by simp [hb]) fun c hc _ => ?_
  rw [colParity_length] at hc
  simp [colParity, bitAt, hb, hc]

/-- The xor of the blocks, from the right end, is their column parity (R150). -/
theorem foldrM_bitXor_zeros {blocks : List Bits} {w : Nat} (h : ∀ b ∈ blocks, b.length = w) :
    blocks.foldrM bitXor (rep w false) = .ok (colParity blocks w) := by
  induction blocks with
  | nil => rw [colParity_nil]; rfl
  | cons b blocks ih =>
    obtain ⟨hb, hblocks⟩ := List.forall_mem_cons.mp h
    rw [List.foldrM_cons, ih hblocks, colParity_cons blocks hb, ← bitXor_of_length_eq (by simp [hb])]
    rfl

end Sys2Proof.Machine

open Sys2Proof Sys2Proof.Machine

/-- Settles O25: each block, from the right end, is one more xor into the lanes. -/
theorem columnParityIsLaneWise : Obligations.ColumnParityIsLaneWise := by
  unfold Obligations.ColumnParityIsLaneWise
  exact fun blocks w h => ⟨colParity_length blocks w, fun _ => bitAt_colParity blocks, foldrM_bitXor_zeros h⟩

end

section
/-! PROOFS. The ones of a column by their indices, the pad's among them, and the LRC receiver on what was sent; O22
(43_lrc.md). -/

namespace Sys2Proof.Machine

/-! ### The bits of a column -/

theorem bitAt_of_length_le {s : Bits} {i : Nat} (h : s.length ≤ i) : bitAt s i = false := by
  simp [bitAt, h]

@[simp] theorem bitAt_zeros (k i : Nat) : bitAt (rep k false) i = false := by
  by_cases h : i < k <;> simp [bitAt, rep, h]

theorem bitAt_slice (s : Bits) {a b i : Nat} (h : i < b - a) : bitAt (slice s a b) i = bitAt s (a + i) := by
  simp [bitAt, slice, h]

/-- The pad reads 0, as do the indices past the data. -/
theorem bitAt_padRight (d : Bits) (w i : Nat) : bitAt (padRight d w) i = bitAt d i := by
  rcases Nat.lt_or_ge i d.length with h | h
  · exact bitAt_append_left _ _ _ h
  · obtain ⟨j, rfl⟩ := Nat.exists_eq_add_of_le h
    rw [padRight, bitAt_append_right, bitAt_zeros, bitAt_of_length_le h]

/-- Column `c` of the blocks of `s` holds the bits of `s` at the indices `j * w + c` (R130). -/
theorem map_bitAt_partition (s : Bits) {w c : Nat} (hc : c < w) :
    ((partition s w).map fun b => bitAt b c) = (List.range (s.length / w)).map fun j => bitAt s (j * w + c) := by
  rw [partition, List.map_map]
  refine List.map_congr_left fun j _ => bitAt_slice s ?_
  rwa [Nat.succ_mul, Nat.add_sub_cancel_left]

/-- A column's parity counts its ones (R102, R150). -/
theorem bitAt_colParity_partition (s : Bits) {w c : Nat} (hc : c < w) :
    bitAt (colParity (partition s w) w) c =
      decide (((List.range (s.length / w)).countP fun j => bitAt s (j * w + c)) % 2 = 1) := by
  rw [bitAt_colParity _ hc, map_bitAt_partition s hc, parity_eq_decide, count1, List.count, List.countP_map]
  simp [Function.comp_def]

/-! ### A column's ones by their indices -/

/-- Of the `w` indices from `k * w` on, one has remainder `c`. -/
theorem countP_column_of_row (f : Nat → Bool) {w c : Nat} (k : Nat) (hc : c < w) :
    (List.range w).countP (fun i => f (k * w + i) && (k * w + i) % w == c) = (f (k * w + c)).toNat := by
  have hcol : ∀ i ∈ List.range w, (f (k * w + i) && (k * w + i) % w == c) = (f (k * w + c) && i == c) := by
    intro i hi
    rw [Nat.mul_add_mod_of_lt (List.mem_range.mp hi)]
    rcases eq_or_ne i c with rfl | h
    · rfl
    · simp [beq_eq_false_iff_ne.mpr h]
  rw [List.countP_congr fun i hi => by rw [hcol i hi]]
  cases f (k * w + c) with
  | false => simp
  | true =>
    simp only [Bool.true_and, Bool.toNat_true]
    exact List.count_eq_one_of_mem List.nodup_range (List.mem_range.mpr hc)

/-- The indices of remainder `c` in `k` rows of `w` are the `j * w + c`. -/
theorem countP_column (f : Nat → Bool) {w c : Nat} (k : Nat) (hc : c < w) :
    (List.range (k * w)).countP (fun i => f i && i % w == c) = (List.range k).countP fun j => f (j * w + c) := by
  induction k with
  | zero => simp
  | succ k ih =>
    have hrow := countP_column_of_row f k hc
    rw [Nat.succ_mul, List.range_add, List.countP_append, List.countP_map, ih, List.range_succ, List.countP_append,
      Function.comp_def, hrow, List.countP_singleton, Bool.toNat]
    cases f (k * w + c) <;> rfl

/-- Indices where `f` reads 0 add nothing to a column. -/
theorem countP_column_of_le {f : Nat → Bool} {n m : Nat} (w c : Nat) (hnm : n ≤ m) (h : ∀ i, n ≤ i → f i = false) :
    (List.range m).countP (fun i => f i && i % w == c) = (List.range n).countP fun i => f i && i % w == c := by
  obtain ⟨k, rfl⟩ := Nat.exists_eq_add_of_le hnm
  rw [List.range_add, List.countP_append, Nat.add_eq_left, List.countP_map, List.countP_eq_zero]
  intro i _
  simp [h]

/-- The pad adds nothing to a column: its ones are those of the data (R151). -/
theorem countP_column_padRight (d : Bits) {w c : Nat} (hc : c < w) :
    ((List.range ((padRight d w).length / w)).countP fun j => bitAt (padRight d w) (j * w + c)) =
      (List.range d.length).countP fun i => bitAt d i && i % w == c := by
  have hw : 0 < w := Nat.zero_lt_of_lt hc
  have hrows : (padRight d w).length / w * w = (padRight d w).length :=
    Nat.div_mul_cancel (Nat.dvd_of_mod_eq_zero (padRight_length_mod d hw))
  simp only [bitAt_padRight]
  rw [← countP_column (bitAt d) _ hc, hrows,
    countP_column_of_le w c (length_le_padRight_length d w) fun _ => bitAt_of_length_le]

/-! ### The receiver on what was sent -/

/-- With the check block included every column is even (R152). -/
theorem colParity_append_colParity (blocks : List Bits) (w : Nat) :
    colParity (blocks ++ [colParity blocks w]) w = rep w false := by
  have heven : ∀ c ∈ List.range w, parity ((blocks ++ [colParity blocks w]).map fun b => bitAt b c) = false := by
    intro c hc
    simp [parity_append, bitAt_colParity blocks (List.mem_range.mp hc)]
  rw [colParity, List.map_congr_left heven, List.map_const', List.length_range, rep]

/-- The string sent has even columns (R153's corner case). -/
theorem colParity_partition_lrcSend (d : Bits) {w : Nat} (hw : 0 < w) :
    colParity (partition (lrcSend d w) w) w = rep w false := by
  rw [lrcSend, partition_append_last hw (padRight_length_mod d hw) (colParity_length _ _), colParity_append_colParity]

theorem channel_append {s : Bits} (t : Bits) (inj : Bool) (hne : s ≠ []) :
    channel (s ++ t) inj = channel s inj ++ t := by
  cases s with
  | nil => contradiction
  | cons b s => cases inj <;> rfl

theorem zipWith_bne_channel (a b : Bits) (inj : Bool) :
    List.zipWith (· != ·) (channel a inj) b = channel (List.zipWith (· != ·) a b) inj := by
  cases inj with
  | false => rfl
  | true => cases a <;> cases b <;> simp [channel, firstFlipped]

/-- The channel's flip of the string is the same flip of its column parities: the bit is column 0's (R153's corner
case). -/
theorem colParity_partition_channel {s : Bits} {w : Nat} (inj : Bool) (hw : 0 < w) (hs : s.length % w = 0)
    (hne : s ≠ []) : colParity (partition (channel s inj) w) w = channel (colParity (partition s w) w) inj := by
  obtain ⟨b, t, rfl, hb, -⟩ := exists_block hs hne
  have hb0 : b ≠ [] := List.ne_nil_of_length_pos (by omega)
  have hflip : (channel b inj).length = w := by rw [channel_length, hb]
  rw [channel_append t inj hb0, partition_append_block hw hflip, partition_append_block hw hb,
    colParity_cons _ hflip, colParity_cons _ hb, zipWith_bne_channel]

/-- Zeros leave the channel as zeros unless it flips one. -/
theorem allBits_channel_zeros {w : Nat} (inj : Bool) (hw : 0 < w) :
    allBits (channel (rep w false) inj) false = !inj := by
  cases inj with
  | false => simp [channel, allBits, rep]
  | true =>
    obtain ⟨k, rfl⟩ := Nat.exists_eq_succ_of_ne_zero hw.ne'
    rfl

theorem lrcSend_length_mod (d : Bits) {w : Nat} (hw : 0 < w) : (lrcSend d w).length % w = 0 := by
  rw [lrcSend, List.length_append, colParity_length, Nat.add_mod_right, padRight_length_mod d hw]

/-- The verdict on what was sent is INJ (R153's corner cases). -/
theorem lrcRecv_channel_lrcSend (d : Bits) {w : Nat} (inj : Bool) (hw : 0 < w) :
    lrcRecv (channel (lrcSend d w) inj) w = inj := by
  have hne : lrcSend d w ≠ [] := List.ne_nil_of_length_pos (by simp [lrcSend, hw])
  rw [lrcRecv, colParity_partition_channel inj hw (lrcSend_length_mod d hw) hne, colParity_partition_lrcSend d hw,
    allBits_channel_zeros inj hw, Bool.not_not]

end Sys2Proof.Machine

open Sys2Proof Sys2Proof.Machine

/-- Settles O22: the pad adds nothing to a column's count of ones; with the check block included every column is even,
so the receiver sees the injected flip and nothing else. -/
theorem lrcCompletes : Obligations.LrcCompletes := by
  unfold Obligations.LrcCompletes
  intro inj gsup s e d hs hd hne
  have hw : 0 < frameWidth d.length := blockWidth_pos d.length
  have hv : e.validate .lrc gsup = .ok () := Engine.validate_of_operands .lrc gsup hd hne nofun
  refine ⟨frameWidth d.length, padRight d (frameWidth d.length), _, lrcSend d (frameWidth d.length), rfl,
    padRight_eq_frameZeros d hw, colParity_length _ _, fun c hc => ⟨?padded, ?data⟩, rfl, ?next⟩
  case padded => exact bitAt_colParity_partition _ hc
  case data => rw [bitAt_colParity_partition _ hc, countP_column_padRight d hc]
  case next =>
    exact exec_of_runStages hs (lrcRun_eq_runStages inj hv hd) rfl
      (congrArg Except.ok (lrcRecv_channel_lrcSend d inj hw))

end

section
/-! PROOFS. Bit strings as polynomials over GF(2), and the working-register division as their remainder; O27
(44_crc.md). -/

namespace Sys2Proof.Machine

open Polynomial (X)

/-! ### The polynomial of a string (R51) -/

@[simp] theorem polyOf_nil : polyOf [] = 0 := rfl

/-- The leading bit is the coefficient of the highest power. -/
theorem polyOf_cons (b : Bool) (s : Bits) : polyOf (b :: s) = (if b then X ^ s.length else 0) + polyOf s := by
  rw [polyOf, List.length_cons, Finset.sum_range_succ', add_comm, polyOf]
  simp [Nat.sub_sub, Nat.add_comm]

theorem polyOf_append (s t : Bits) : polyOf (s ++ t) = polyOf s * X ^ t.length + polyOf t := by
  induction s with
  | nil => simp
  | cons b s ih =>
    rw [List.cons_append, polyOf_cons, polyOf_cons, ih, List.length_append, pow_add]
    split <;> ring

@[simp] theorem polyOf_zeros (k : Nat) : polyOf (rep k false) = 0 := by
  induction k with
  | zero => rfl
  | succ k ih => simp [polyOf_cons, ih]

/-- Xor is addition over GF(2). -/
theorem polyOf_zipWith_bne {a b : Bits} (h : a.length = b.length) :
    polyOf (List.zipWith (· != ·) a b) = polyOf a + polyOf b := by
  induction a generalizing b with
  | nil => simp [List.length_eq_zero_iff.mp h.symm]
  | cons x a ih =>
    cases b with
    | nil => simp at h
    | cons y b =>
      have hlen : a.length = b.length := by simpa using h
      have hbit : (if x != y then X ^ b.length else 0 : Polynomial (ZMod 2)) =
          (if x then X ^ b.length else 0) + if y then X ^ b.length else 0 := by
        cases x <;> cases y <;> simp [CharTwo.add_self_eq_zero]
      rw [List.zipWith_cons_cons, polyOf_cons, polyOf_cons, polyOf_cons, ih hlen, List.length_zipWith, hlen,
        Nat.min_self, hbit]
      ring

theorem degree_polyOf_lt (s : Bits) : (polyOf s).degree < s.length := by
  induction s with
  | nil => simp
  | cons b s ih =>
    have hlt : (s.length : WithBot Nat) < (s.length + 1 : Nat) := Nat.cast_lt.mpr (Nat.lt_succ_self _)
    have hlead : (if b then X ^ s.length else 0 : Polynomial (ZMod 2)).degree < (s.length + 1 : Nat) := by
      cases b with
      | false => simp
      | true => rwa [if_pos rfl, Polynomial.degree_X_pow]
    rw [polyOf_cons, List.length_cons]
    exact (Polynomial.degree_add_le _ _).trans_lt (max_lt hlead (ih.trans hlt))

theorem coeff_polyOf_cons (b : Bool) (s : Bits) : (polyOf (b :: s)).coeff s.length = if b then 1 else 0 := by
  rw [polyOf_cons, Polynomial.coeff_add, Polynomial.coeff_eq_zero_of_degree_lt (degree_polyOf_lt s), add_zero]
  cases b <;> simp

/-- A string of a given width is fixed by its polynomial. -/
theorem eq_of_polyOf_eq {a b : Bits} (hl : a.length = b.length) (hp : polyOf a = polyOf b) : a = b := by
  induction a generalizing b with
  | nil => exact (List.length_eq_zero_iff.mp hl.symm).symm
  | cons x a ih =>
    cases b with
    | nil => simp at hl
    | cons y b =>
      have hlen : a.length = b.length := by simpa using hl
      have hcoeff : (if x then 1 else 0 : ZMod 2) = if y then 1 else 0 := by
        rw [← coeff_polyOf_cons x a, ← coeff_polyOf_cons y b, hp, hlen]
      obtain rfl : x = y := by cases x <;> cases y <;> simp at hcoeff ⊢
      rw [polyOf_cons, polyOf_cons, hlen] at hp
      rw [ih hlen (add_left_cancel hp)]

/-! ### The divisor -/

/-- G′ of R171: the generator's polynomial, its leading coefficient taken as 1. -/
noncomputable def crcDivisor (g : Bits) : Polynomial (ZMod 2) := X ^ (g.length - 1) + polyOf g.tail

theorem degree_polyOf_tail_lt (g : Bits) : (polyOf g.tail).degree < (g.length - 1 : Nat) := by
  rw [← List.length_tail]
  exact degree_polyOf_lt g.tail

theorem crcDivisor_monic (g : Bits) : (crcDivisor g).Monic :=
  Polynomial.monic_X_pow_add (degree_polyOf_tail_lt g)

@[simp] theorem degree_crcDivisor (g : Bits) : (crcDivisor g).degree = (g.length - 1 : Nat) := by
  rw [crcDivisor, Polynomial.degree_add_eq_left_of_degree_lt] <;> rw [Polynomial.degree_X_pow]
  exact degree_polyOf_tail_lt g

/-! ### The division (R170) -/

/-- One reduction takes the divisor off the register exactly if its leading bit is 1. -/
theorem polyOf_crcReduce {g reg x : Bits} (hg : 1 ≤ g.length) (h : reg.length = g.length)
    (hx : crcReduce g reg = .ok x) : polyOf reg = polyOf x + if bitAt reg 0 then crcDivisor g else 0 := by
  rw [crcReduce_ok h] at hx
  cases hx
  obtain ⟨c, t, rfl⟩ := List.exists_cons_of_length_pos hg
  obtain ⟨b, r, rfl⟩ := List.exists_cons_of_length_pos (h ▸ hg)
  have hlen : r.length = t.length := by simpa using h
  cases b with
  | false => simp [polyOf_cons, polyOf_zipWith_bne, hlen]
  | true =>
    simp only [bitAt_cons_zero, if_true, List.zipWith_cons_cons, List.drop_one, List.tail_cons, polyOf_cons,
      polyOf_zipWith_bne hlen.symm, crcDivisor, List.length_cons, Nat.add_sub_cancel, hlen]
    have htwice : polyOf t + polyOf t = 0 := CharTwo.add_self_eq_zero _
    linear_combination -htwice

/-- A reduction keeps the register's residue. -/
theorem crcDivisor_dvd_crcReduce_sub {g reg x p : Bits} (hg : 1 ≤ g.length) (h : reg.length = g.length)
    (hx : crcReduce g reg = .ok x) (hp : crcDivisor g ∣ polyOf reg - polyOf p) :
    crcDivisor g ∣ polyOf x - polyOf p := by
  have hmult : crcDivisor g ∣ if bitAt reg 0 then crcDivisor g else 0 := by split <;> simp
  have hdiff := dvd_sub hp hmult
  rwa [polyOf_crcReduce hg h hx, add_sub_right_comm, add_sub_cancel_right] at hdiff

/-- What the loop keeps: REG has the generator's width and the residue of the bits drawn so far. -/
structure CrcWork.Represents (g s : Bits) (k : CrcWork) : Prop where
  width : k.reg.length = g.length
  residue : crcDivisor g ∣ polyOf k.reg - polyOf (s.take k.pick)

theorem crcStart_represents {s g : Bits} (h : g.length ≤ s.length) : (crcStart s g).Represents g s where
  width := crcStart_length h
  residue := by simp [crcStart, slice]

theorem take_succ_eq_append_bitAt {s : Bits} {i : Nat} (h : i < s.length) :
    s.take (i + 1) = s.take i ++ [bitAt s i] := by
  rw [List.take_add_one, List.getElem?_eq_getElem h, bitAt, List.getD_eq_getElem s false h]
  rfl

/-- The bit drawn goes to the register and to the bits drawn alike. -/
theorem crcDraw_represents {g s : Bits} {k : CrcWork} (hg : 1 ≤ g.length) (hk : k.Represents g s)
    (hpick : k.pick < s.length) :
    ∃ k', crcDraw g s k = .ok k' ∧ k'.Represents g s ∧ k'.pick = k.pick + 1 := by
  obtain ⟨x, hx⟩ : ∃ x, crcReduce g k.reg = .ok x := ⟨_, crcReduce_ok hk.width⟩
  have hlen := crcReduce_length hk.width hx
  have hdvd := crcDivisor_dvd_crcReduce_sub hg hk.width hx hk.residue
  refine ⟨{ reg := x ++ [bitAt s k.pick], pick := k.pick + 1 }, by rw [crcDraw, hx]; rfl, ⟨?width, ?residue⟩, rfl⟩
  case width => simp only [List.length_append, List.length_singleton]; omega
  case residue =>
    rw [take_succ_eq_append_bitAt hpick, polyOf_append, polyOf_append, add_sub_add_right_eq_sub, ← sub_mul]
    exact hdvd.mul_right _

theorem crcLoop_represents {g s : Bits} {turns : Nat} {k : CrcWork} (hg : 1 ≤ g.length) (hk : k.Represents g s)
    (hpick : k.pick + turns ≤ s.length) :
    ∃ k', crcLoop g s turns k = .ok k' ∧ k'.Represents g s ∧ k'.pick = k.pick + turns := by
  induction turns generalizing k with
  | zero => exact ⟨k, rfl, hk, rfl⟩
  | succ turns ih =>
    obtain ⟨k1, hdraw, hk1, hpick1⟩ := crcDraw_represents hg hk (by omega)
    obtain ⟨k', hloop, hk', hpick'⟩ := ih hk1 (by omega)
    exact ⟨k', by rw [crcLoop, hdraw]; exact hloop, hk', by omega⟩

/-- The division leaves the residue of the whole string. -/
theorem crcDivisor_dvd_mod2div_sub {s g r : Bits} (hg : 1 ≤ g.length) (h : g.length ≤ s.length)
    (hr : mod2div s g = .ok r) : crcDivisor g ∣ polyOf r - polyOf s := by
  have hturns : g.length + (s.length - g.length) = s.length := Nat.add_sub_cancel' h
  obtain ⟨k, hloop, hk, hpick⟩ := crcLoop_represents hg (crcStart_represents h) hturns.le
  have hall : s.take k.pick = s := List.take_of_length_le (by rw [hpick]; exact hturns.ge)
  rw [mod2div, hloop] at hr
  exact crcDivisor_dvd_crcReduce_sub hg hk.width hr (hall ▸ hk.residue)

/-- All of R171: what the division answers is fixed by its width and its polynomial. -/
theorem mod2div_eq_ok_iff {s g r : Bits} (hg : 1 ≤ g.length) (h : g.length ≤ s.length) :
    mod2div s g = .ok r ↔ r.length = g.length - 1 ∧ polyOf r = polyOf s %ₘ crcDivisor g := by
  obtain ⟨x, hx, hlen⟩ := mod2div_ok hg h
  have hpoly : polyOf x = polyOf s %ₘ crcDivisor g := by
    have hmod := Polynomial.modByMonic_eq_of_dvd_sub (crcDivisor_monic g) (crcDivisor_dvd_mod2div_sub hg h hx)
    rwa [(Polynomial.modByMonic_eq_self_iff (crcDivisor_monic g)).mpr] at hmod
    rw [degree_crcDivisor, ← hlen]
    exact degree_polyOf_lt x
  constructor
  · intro hr
    obtain rfl : x = r := Except.ok.inj (hx.symm.trans hr)
    exact ⟨hlen, hpoly⟩
  · rintro ⟨hrl, hrp⟩
    rw [hx, eq_of_polyOf_eq (hlen.trans hrl.symm) (hpoly.trans hrp.symm)]

/-- The generator's first bit has no part in the remainder. -/
theorem mod2div_cons_tail {s g : Bits} (b : Bool) (hg : 1 ≤ g.length) (h : g.length ≤ s.length) :
    mod2div s (b :: g.tail) = mod2div s g := by
  have hlen : (b :: g.tail).length = g.length := by rw [List.length_cons, List.length_tail]; omega
  have hdiv : crcDivisor (b :: g.tail) = crcDivisor g := by rw [crcDivisor, hlen, List.tail_cons, crcDivisor]
  obtain ⟨r, hr, -⟩ := mod2div_ok hg h
  rw [hr, mod2div_eq_ok_iff (hlen ▸ hg) (hlen ▸ h), hlen, hdiv]
  exact (mod2div_eq_ok_iff hg h).mp hr

/-- The division is linear. -/
theorem mod2div_zipWith_bne {s t g rs rt : Bits} (hg : 1 ≤ g.length) (h : g.length ≤ s.length)
    (hst : s.length = t.length) (hs : mod2div s g = .ok rs) (ht : mod2div t g = .ok rt) :
    mod2div (List.zipWith (· != ·) s t) g = .ok (List.zipWith (· != ·) rs rt) := by
  obtain ⟨hrs, hps⟩ := (mod2div_eq_ok_iff hg h).mp hs
  obtain ⟨hrt, hpt⟩ := (mod2div_eq_ok_iff hg (hst ▸ h)).mp ht
  rw [mod2div_eq_ok_iff hg (by simp [← hst, h]), polyOf_zipWith_bne hst, polyOf_zipWith_bne (hrs.trans hrt.symm),
    Polynomial.add_modByMonic, hps, hpt]
  exact ⟨by simp [hrs, hrt], rfl⟩

theorem length_eq_of_bitXor_ok {a b r : Bits} (h : bitXor a b = .ok r) : a.length = b.length := by
  by_contra hne
  rw [bitXor_of_length_ne hne] at h
  cases h

end Sys2Proof.Machine

open Sys2Proof Sys2Proof.Machine

/-- Settles O27: the loop keeps the residue of the bits drawn, so the answer is the remainder, which the divisor fixes
and which is linear. -/
theorem divisionIsPolynomialRemainder : Obligations.DivisionIsPolynomialRemainder := by
  unfold Obligations.DivisionIsPolynomialRemainder
  intro s g hg h
  have hg1 : 1 ≤ g.length := Nat.one_le_of_lt hg
  obtain ⟨rs, hrs, hlen⟩ := mod2div_ok hg1 h
  refine ⟨⟨rs, hrs, (mod2div_eq_ok_iff hg1 h).mp hrs⟩, fun b => mod2div_cons_tail b hg1 h, fun t st hst => ?linear⟩
  case linear =>
    have hlst := length_eq_of_bitXor_ok hst
    rw [bitXor_of_length_eq hlst] at hst
    cases hst
    obtain ⟨rt, hrt, hlen'⟩ := mod2div_ok hg1 (hlst ▸ h)
    exact ⟨rs, rt, _, hrs, hrt, mod2div_zipWith_bne hg1 h hlst hrs hrt,
      bitXor_of_length_eq (hlen.trans hlen'.symm)⟩

end

section
/-! PROOFS. What was sent is a multiple of the divisor, and the receiver on it past the channel; O23 (44_crc.md). -/

namespace Sys2Proof.Machine

open Polynomial (X)

/-! ### The receiver (R173) -/

theorem polyOf_eq_zero_iff (s : Bits) : polyOf s = 0 ↔ s = rep s.length false := by
  constructor
  · intro h
    exact eq_of_polyOf_eq (rep_length _ _).symm (by rw [h, polyOf_zeros])
  · intro h
    rw [h, polyOf_zeros]

theorem allBits_false_iff (s : Bits) : allBits s false = true ↔ polyOf s = 0 := by
  simp [polyOf_eq_zero_iff, allBits, rep, List.eq_replicate_iff]

/-- The receiver reports no error exactly on the multiples of the divisor. -/
theorem crcRecv_of_dvd_iff {r g : Bits} {err : Bool} (hg : 1 ≤ g.length) (h : g.length ≤ r.length)
    (herr : err = false ↔ crcDivisor g ∣ polyOf r) : crcRecv r g = .ok err := by
  obtain ⟨x, hx, -, hrecv⟩ := crcRecv_ok hg h
  obtain ⟨-, hpoly⟩ := (mod2div_eq_ok_iff hg h).mp hx
  have hall : allBits x false = true ↔ err = false := by
    rw [allBits_false_iff, hpoly, Polynomial.modByMonic_eq_zero_iff_dvd (crcDivisor_monic g), herr]
  rw [hrecv]
  cases err <;> simpa using hall

/-! ### What was sent, past the channel -/

/-- Data and remainder together are a multiple of the divisor (R174's corner case INJ = 0). -/
theorem crcDivisor_dvd_polyOf_sent {d g rem : Bits} (hne : d ≠ []) (hg : 1 ≤ g.length)
    (hrem : mod2div (d ++ rep (g.length - 1) false) g = .ok rem) : crcDivisor g ∣ polyOf (d ++ rem) := by
  have hpos : 1 ≤ d.length := List.length_pos_of_ne_nil hne
  obtain ⟨hlen, hpoly⟩ := (mod2div_eq_ok_iff hg (by simp; omega)).mp hrem
  have hsent : polyOf (d ++ rem) = polyOf rem - polyOf (d ++ rep (g.length - 1) false) := by
    rw [CharTwo.sub_eq_add, polyOf_append, polyOf_append, polyOf_zeros, rep_length, hlen, add_zero, add_comm]
  rw [hsent, hpoly]
  exact Polynomial.dvd_modByMonic_sub _ _

/-- The injected flip adds the highest power. -/
theorem polyOf_firstFlipped {s : Bits} (hne : s ≠ []) :
    polyOf (firstFlipped s) = polyOf s + X ^ (s.length - 1) := by
  obtain ⟨b, t, rfl⟩ := List.exists_cons_of_ne_nil hne
  have htwice : (X ^ t.length + X ^ t.length : Polynomial (ZMod 2)) = 0 := CharTwo.add_self_eq_zero _
  cases b with
  | false => simp [firstFlipped, polyOf_cons, add_comm]
  | true =>
    simp only [firstFlipped, polyOf_cons, Bool.not_true, Bool.false_eq_true, if_false, if_true, List.length_cons,
      Nat.add_sub_cancel]
    linear_combination -htwice

/-- The divisor divides a power of x only as a power of x itself, that is if the generator has no 1 after its first
bit (R174's corner case INJ = 1). -/
theorem crcDivisor_dvd_X_pow_iff {g : Bits} {n : Nat} (h : g.length - 1 ≤ n) :
    crcDivisor g ∣ X ^ n ↔ polyOf g.tail = 0 := by
  constructor
  · intro hdvd
    obtain ⟨i, -, hassoc⟩ := (dvd_prime_pow Polynomial.prime_X n).mp hdvd
    have heq := Polynomial.eq_of_monic_of_associated (crcDivisor_monic g) (Polynomial.monic_X_pow i) hassoc
    have hdeg := congrArg Polynomial.degree heq
    rw [degree_crcDivisor, Polynomial.degree_X_pow, Nat.cast_inj] at hdeg
    rwa [crcDivisor, hdeg, add_eq_left] at heq
  · intro h0
    rw [crcDivisor, h0, add_zero]
    exact pow_dvd_pow X h

theorem contains_true_eq_not_allBits (s : Bits) : s.contains true = !allBits s false := by
  rw [Bool.eq_iff_iff]
  simp [allBits]

/-- The verdict on what was sent (R174's corner cases). -/
theorem crcRecv_channel_sent {d g rem : Bits} (inj : Bool) (hne : d ≠ []) (hg : 1 ≤ g.length)
    (hrem : mod2div (d ++ rep (g.length - 1) false) g = .ok rem) (hlen : rem.length = g.length - 1) :
    crcRecv (channel (d ++ rem) inj) g = .ok (inj && g.tail.contains true) := by
  have hpos : 1 ≤ d.length := List.length_pos_of_ne_nil hne
  have hsent : (d ++ rem).length = d.length + (g.length - 1) := by rw [List.length_append, hlen]
  have hdvd := crcDivisor_dvd_polyOf_sent hne hg hrem
  refine crcRecv_of_dvd_iff hg (by rw [channel_length]; omega) ?_
  cases inj with
  | false => simpa [channel] using hdvd
  | true =>
    rw [channel_eq, if_pos rfl, polyOf_firstFlipped (by simp [hne]), dvd_add_right hdvd,
      crcDivisor_dvd_X_pow_iff (by omega), ← allBits_false_iff, Bool.true_and, contains_true_eq_not_allBits,
      Bool.not_eq_false']

end Sys2Proof.Machine

open Sys2Proof Sys2Proof.Machine

/-- Settles O23: what was sent is a multiple of the divisor, so the receiver sees the injected power of x, unless the
divisor is a power of x too. -/
theorem crcCompletes : Obligations.CrcCompletes := by
  unfold Obligations.CrcCompletes
  intro inj gsup s e d g hs hd hne hgen
  obtain ⟨hop, hl⟩ := generatorOperand_ok hgen
  have hv : e.validate .crc gsup = .ok () := by
    refine Engine.validate_of_operands .crc gsup hd hne fun _ hsup => ?_
    obtain ⟨-, hg, hl⟩ | ⟨hdefault, -⟩ := hgen
    · exact ⟨g, hg, hl⟩
    · cases hsup.symm.trans hdefault
  have hg1 : 1 ≤ g.length := Nat.one_le_of_lt hl
  obtain ⟨rem, hrem, hlen, hsend⟩ := crcSend_ok hne hg1
  exact ⟨rem, d ++ rem, hrem, hlen, rfl, exec_of_runStages hs (crcRun_eq_runStages inj hv hd hop) hsend
    (crcRecv_channel_sent inj hne hg1 hrem hlen)⟩

end

section
/-! PROOFS. The checksum fold by the width and the residue of its sum; O26 (45_checksum.md). -/

namespace Sys2Proof.Machine

/-! ### End-around-carry sums by their residues -/

/-- `r` is the w-bit end-around-carry sum of numbers adding up to `n`: of the two w-bit values 0 and 2^w - 1 with
residue 0, 0 stands for `n = 0` alone (R104, R190). -/
structure IsEacSum (w n : Nat) (r : Bits) : Prop where
  width : r.length = w
  residue : val r ≡ n [MOD 2 ^ w - 1]
  zero_iff : val r = 0 ↔ n = 0

theorem isEacSum_val {s : Bits} {w : Nat} (h : s.length = w) : IsEacSum w (val s) s := ⟨h, .rfl, .rfl⟩

theorem val_le {s : Bits} {w : Nat} (h : s.length = w) : val s ≤ 2 ^ w - 1 :=
  Nat.le_sub_one_of_lt (h ▸ val_lt s)

/-- The width, the residue and being 0 or not fix the sum. -/
theorem IsEacSum.unique {w n : Nat} {r r' : Bits} (h : IsEacSum w n r) (h' : IsEacSum w n r') : r = r' := by
  refine eq_of_val_eq (h.width.trans h'.width.symm) ?_
  have hzero : val r = 0 ↔ val r' = 0 := h.zero_iff.trans h'.zero_iff.symm
  have hle := val_le h.width
  have hle' := val_le h'.width
  by_cases h0 : val r = 0
  · rw [h0, hzero.mp h0]
  · exact Nat.ModEq.eq_of_abs_lt (h.residue.trans h'.residue.symm) (abs_lt.mpr (by omega))

theorem IsEacSum.eacAdd {w n m : Nat} {a b r : Bits} (ha : IsEacSum w n a) (hb : IsEacSum w m b)
    (hr : eacAdd a b = .ok r) : IsEacSum w (n + m) r := by
  have hab : a.length = b.length := ha.width.trans hb.width.symm
  obtain ⟨hlen, hval⟩ := (eacAdd_eq_ok_iff hab).mp hr
  rw [ha.width] at hlen hval
  refine ⟨hlen, ?residue, ?zero⟩
  case residue =>
    calc val r ≡ val a + val b [MOD 2 ^ w - 1] := by rw [hval]; exact eacFold_mod w _
      _ ≡ n + m [MOD 2 ^ w - 1] := ha.residue.add hb.residue
  case zero => rw [hval, eacFold_eq_zero_iff, Nat.add_eq_zero_iff, ha.zero_iff, hb.zero_iff, Nat.add_eq_zero_iff]

/-! ### The fold (R190) -/

theorem csumFrom_isEacSum {w n : Nat} {blocks : List Bits} {sum r : Bits} (hs : IsEacSum w n sum)
    (hb : ∀ b ∈ blocks, b.length = w) (hr : csumFrom sum blocks = .ok r) :
    IsEacSum w (n + (blocks.map val).sum) r := by
  induction blocks generalizing n sum with
  | nil =>
    cases hr
    exact hs
  | cons b blocks ih =>
    obtain ⟨hbw, hblocks⟩ := List.forall_mem_cons.mp hb
    obtain ⟨x, hx, -⟩ := eacAdd_ok (hs.width.trans hbw.symm)
    rw [csumFrom, hx] at hr
    rw [List.map_cons, List.sum_cons, ← Nat.add_assoc]
    exact ih (hs.eacAdd (isEacSum_val hbw) hx) hblocks hr

/-- All of R190: what the fold answers is the end-around-carry sum of the blocks' values. -/
theorem csumFold_eq_ok_iff {w : Nat} {blocks : List Bits} {r : Bits} (hne : blocks ≠ [])
    (hb : ∀ b ∈ blocks, b.length = w) :
    csumFold blocks = .ok r ↔ IsEacSum w (blocks.map val).sum r := by
  obtain ⟨x, hx, -⟩ := csumFold_ok hne hb
  have hsum : IsEacSum w (blocks.map val).sum x := by
    obtain ⟨b, rest, rfl⟩ := List.exists_cons_of_ne_nil hne
    obtain ⟨hbw, hrest⟩ := List.forall_mem_cons.mp hb
    exact csumFrom_isEacSum (isEacSum_val hbw) hrest hx
  rw [hx, Except.ok.injEq]
  constructor
  · rintro rfl
    exact hsum
  · exact hsum.unique

/-- A start from zeros makes no difference. -/
theorem csumFold_zeros_cons {w : Nat} {blocks : List Bits} (hne : blocks ≠ []) (hb : ∀ b ∈ blocks, b.length = w) :
    csumFold (rep w false :: blocks) = csumFold blocks := by
  obtain ⟨b, rest, rfl⟩ := List.exists_cons_of_ne_nil hne
  obtain rfl := hb b List.mem_cons_self
  rw [csumFold, csumFrom, eacAdd_zeros_left]
  rfl

theorem csumFrom_concat (sum : Bits) (blocks : List Bits) (b : Bits) :
    csumFrom sum (blocks ++ [b]) = csumFrom sum blocks >>= fun x => eacAdd x b := by
  induction blocks generalizing sum with
  | nil => exact bind_pure (eacAdd sum b)
  | cons c blocks ih =>
    rw [List.cons_append, csumFrom, csumFrom, bind_assoc]
    exact congrArg _ (funext fun x => ih x)

/-- A further block is added to the sum. -/
theorem csumFold_concat {blocks : List Bits} (b : Bits) (hne : blocks ≠ []) :
    csumFold (blocks ++ [b]) = csumFold blocks >>= fun x => eacAdd x b := by
  obtain ⟨c, rest, rfl⟩ := List.exists_cons_of_ne_nil hne
  exact csumFrom_concat c rest b

/-- The order of the blocks does not change the sum. -/
theorem csumFold_perm {w : Nat} {blocks blocks' : List Bits} (hperm : blocks.Perm blocks') (hne : blocks ≠ [])
    (hb : ∀ b ∈ blocks, b.length = w) : csumFold blocks' = csumFold blocks := by
  obtain ⟨r, hr, -⟩ := csumFold_ok hne hb
  have hne' : blocks' ≠ [] := fun h0 => hne (hperm.trans (.of_eq h0)).eq_nil
  have hb' : ∀ b ∈ blocks', b.length = w := fun b hmem => hb b (hperm.mem_iff.mpr hmem)
  rw [hr, csumFold_eq_ok_iff hne' hb', ← (hperm.map val).sum_eq]
  exact (csumFold_eq_ok_iff hne hb).mp hr

theorem sum_map_val_eq_zero_iff (blocks : List Bits) : (blocks.map val).sum = 0 ↔ ∀ b ∈ blocks, val b = 0 := by
  simp [List.sum_eq_zero_iff]

end Sys2Proof.Machine

open Sys2Proof Sys2Proof.Machine

/-- Settles O26: the sum is fixed by its width, its residue and being 0 or not, and these are those of the sum of the
blocks' values, in any order. -/
theorem checksumFoldLaws : Obligations.ChecksumFoldLaws := by
  unfold Obligations.ChecksumFoldLaws
  intro blocks w _ hne hb
  refine ⟨?value, csumFold_zeros_cons hne hb, ?single, ?further, fun blocks' hperm => csumFold_perm hperm hne hb⟩
  case value =>
    obtain ⟨sum, hsum, hlen⟩ := csumFold_ok hne hb
    have hs := (csumFold_eq_ok_iff hne hb).mp hsum
    exact ⟨sum, hsum, hlen, hs.residue, hs.zero_iff.trans (sum_map_val_eq_zero_iff blocks)⟩
  case single =>
    intro b sum hone hhead hsum
    obtain ⟨c, rfl⟩ := List.length_eq_one_iff.mp hone
    cases hhead
    cases hsum
    rfl
  case further =>
    intro b sum sum' hsum _ hadd
    rw [csumFold_concat b hne, hsum]
    exact hadd

end

section
/-! PROOFS. The value of the padded data by its blocks, and the CHECKSUM receiver on what was sent; O24
(45_checksum.md). -/

namespace Sys2Proof.Machine

/-! ### The blocks of zero data -/

theorem val_eq_zero_iff (s : Bits) : val s = 0 ↔ true ∉ s := by
  induction s with
  | nil => simp
  | cons b s ih => cases b <;> simp [val_cons, ih]

/-- The blocks together are the string (R130). -/
theorem flatten_partition {s : Bits} {w : Nat} (hw : 0 < w) (h : s.length % w = 0) : (partition s w).flatten = s := by
  induction hn : s.length using Nat.strongRecOn generalizing s with
  | ind n ih =>
    by_cases hne : s = []
    · simp [hne]
    · obtain ⟨b, t, rfl, hb, ht⟩ := exists_block h hne
      rw [partition_append_block hw hb, List.flatten_cons,
        ih t.length (by rw [← hn, List.length_append]; omega) ht rfl]

/-- The padded blocks are all 0 exactly if the data is: the pad adds zeros and the blocks hold all of it. -/
theorem sum_map_val_partition_padLeft_eq_zero_iff (d : Bits) {w : Nat} (hw : 0 < w) :
    ((partition (padLeft d w) w).map val).sum = 0 ↔ val d = 0 := by
  have hmem : true ∈ padLeft d w ↔ true ∈ d := by simp [padLeft, rep]
  have hblocks : true ∈ padLeft d w ↔ ∃ b ∈ partition (padLeft d w) w, true ∈ b := by
    rw [← List.mem_flatten, flatten_partition hw (padLeft_length_mod d hw)]
  rw [sum_map_val_eq_zero_iff, val_eq_zero_iff, ← hmem, hblocks]
  simp [val_eq_zero_iff]

/-! ### The check field -/

/-- A sum and its complement leave the residue 0. -/
theorem val_add_val_onesComplement_modEq_zero {w : Nat} {sum : Bits} (h : sum.length = w) :
    val sum + val (onesComplement sum) ≡ 0 [MOD 2 ^ w - 1] := by
  have hfull := val_add_val_onesComplement sum
  rw [h] at hfull
  rw [show val sum + val (onesComplement sum) = 2 ^ w - 1 by omega]
  exact Nat.mod_self _

/-- The complement is all ones exactly if the sum is 0. -/
theorem val_onesComplement_eq_iff {w : Nat} {sum : Bits} (h : sum.length = w) :
    val (onesComplement sum) = 2 ^ w - 1 ↔ val sum = 0 := by
  have hfull := val_add_val_onesComplement sum
  rw [h] at hfull
  omega

/-! ### The injected flip -/

/-- A flip of the leftmost bit adds or takes off 2^(w-1), which is no multiple of 2^w - 1 for `w` of 2 or more (R193's
corner case INJ = 1). -/
theorem val_firstFlipped_not_modEq {b : Bits} {w : Nat} (hb : b.length = w) (hw : 2 ≤ w) :
    ¬val (firstFlipped b) ≡ val b [MOD 2 ^ w - 1] := by
  obtain ⟨x, t, rfl⟩ := List.exists_cons_of_length_pos (show 0 < b.length by omega)
  subst hb
  have htop : ¬2 ^ (t.length + 1) - 1 ∣ 2 ^ t.length := by
    refine Nat.not_dvd_of_pos_of_lt (Nat.two_pow_pos _) ?_
    have hpow : 2 ^ 1 ≤ 2 ^ t.length := Nat.pow_le_pow_right two_pos (by simpa using hw)
    omega
  intro hmod
  have hbit : (!x).toNat * 2 ^ t.length ≡ x.toNat * 2 ^ t.length [MOD 2 ^ (t.length + 1) - 1] :=
    hmod.add_right_cancel'
  cases x with
  | false => exact htop (Nat.modEq_zero_iff_dvd.mp (by simpa using hbit))
  | true => exact htop (Nat.modEq_zero_iff_dvd.mp (by simpa using hbit.symm))

/-- The flip falls into the first block, so it changes the residue of the blocks' sum. -/
theorem sum_map_val_partition_firstFlipped_not_modEq {s : Bits} {w : Nat} (hw : 2 ≤ w) (hs : s.length % w = 0)
    (hne : s ≠ []) :
    ¬((partition (firstFlipped s) w).map val).sum ≡ ((partition s w).map val).sum [MOD 2 ^ w - 1] := by
  have hpos : 0 < w := by omega
  obtain ⟨b, t, rfl, hb, -⟩ := exists_block hs hne
  have hb0 : b ≠ [] := List.ne_nil_of_length_pos (hb ▸ hpos)
  have hsplit : firstFlipped (b ++ t) = firstFlipped b ++ t := by simpa [channel] using channel_append t true hb0
  rw [hsplit, partition_append_block hpos hb, partition_append_block hpos (by rw [firstFlipped_length, hb])]
  exact fun hmod => val_firstFlipped_not_modEq hb hw hmod.add_right_cancel'

theorem partition_ne_nil {s : Bits} {w : Nat} (hw : 0 < w) (hs : s.length % w = 0) (hne : s ≠ []) :
    partition s w ≠ [] := by
  obtain ⟨b, t, rfl, hb, -⟩ := exists_block hs hne
  rw [partition_append_block hw hb]
  exact List.cons_ne_nil _ _

/-- After the flip the blocks have a sum still, of another residue. -/
theorem exists_csumFold_firstFlipped {s sum : Bits} {w : Nat} (hw : 2 ≤ w) (hs : s.length % w = 0) (hne : s ≠ [])
    (hsum : csumFold (partition s w) = .ok sum) :
    ∃ sum', csumFold (partition (firstFlipped s) w) = .ok sum' ∧ sum'.length = w ∧
      ¬val sum' ≡ val sum [MOD 2 ^ w - 1] := by
  have hpos : 0 < w := by omega
  have hblocks {r : Bits} : ∀ b ∈ partition r w, b.length = w := fun _ => partition_block_length
  have hp := partition_ne_nil hpos hs hne
  have hp' : partition (firstFlipped s) w ≠ [] :=
    partition_ne_nil hpos (by rwa [firstFlipped_length])
      (List.ne_nil_of_length_pos (by rwa [firstFlipped_length, List.length_pos_iff]))
  obtain ⟨sum', hsum', hlen'⟩ := csumFold_ok hp' hblocks
  have hres := ((csumFold_eq_ok_iff hp hblocks).mp hsum).residue
  have hres' := ((csumFold_eq_ok_iff hp' hblocks).mp hsum').residue
  exact ⟨sum', hsum', hlen', fun heq =>
    sum_map_val_partition_firstFlipped_not_modEq hw hs hne (hres'.symm.trans (heq.trans hres))⟩

/-! ### The receiver (R192) -/

/-- The receiver folds the data blocks and adds the trailing one. -/
theorem csumRecv_append {s b sum final : Bits} {w : Nat} {err : Bool} (hw : 0 < w) (hs : s.length % w = 0)
    (hb : b.length = w) (hsum : csumFold (partition s w) = .ok sum) (hfinal : eacAdd sum b = .ok final)
    (herr : allBits final true = !err) : csumRecv (s ++ b) w = .ok err := by
  have hblocks : csumFinal (s ++ b) w = .ok final := by
    simp only [csumFinal, partition_append_last hw hs hb, List.dropLast_concat, List.getLastD_concat, hsum]
    exact hfinal
  simp only [csumRecv, hblocks, bind, Except.bind, pure, Except.pure, herr, Bool.not_not]

theorem allBits_true_iff (s : Bits) : allBits s true = true ↔ s = rep s.length true := by
  simp [allBits, rep, List.eq_replicate_iff]

/-- The receiver's final sum is not all ones where the data blocks' sum has another residue than the one whose
complement is the trailing block. -/
theorem allBits_true_eq_false_of_not_modEq {w : Nat} {sum sum' final : Bits} (h : sum.length = w)
    (h' : sum'.length = w) (hne : ¬val sum' ≡ val sum [MOD 2 ^ w - 1])
    (hfinal : eacAdd sum' (onesComplement sum) = .ok final) : allBits final true = false := by
  have hck : (onesComplement sum).length = w := (onesComplement_length sum).trans h
  have hadd := (isEacSum_val h').eacAdd (isEacSum_val hck) hfinal
  by_contra hall
  have hones : val final ≡ 0 [MOD 2 ^ w - 1] := by
    have hrep := val_rep_true w
    rw [(allBits_true_iff final).mp (by simpa using hall), hadd.width, show val (rep w true) = 2 ^ w - 1 by omega]
    exact Nat.mod_self _
  have hboth : val sum' + val (onesComplement sum) ≡ val sum + val (onesComplement sum) [MOD 2 ^ w - 1] :=
    hadd.residue.symm.trans (hones.trans (val_add_val_onesComplement_modEq_zero h).symm)
  exact hne hboth.add_right_cancel'

/-- The verdict on what was sent is INJ (R193's corner cases). -/
theorem csumRecv_channel_sent {d sum : Bits} {w : Nat} (inj : Bool) (hne : d ≠ []) (hw : 2 ≤ w)
    (hsum : csumFold (partition (padLeft d w) w) = .ok sum) (hlen : sum.length = w) :
    csumRecv (channel (padLeft d w ++ onesComplement sum) inj) w = .ok inj := by
  have hpos : 0 < w := by omega
  have hpad : padLeft d w ≠ [] := by simp [padLeft, hne]
  have hmod := padLeft_length_mod d hpos
  have hck : (onesComplement sum).length = w := (onesComplement_length sum).trans hlen
  rw [channel_append _ inj hpad, channel_eq]
  cases inj with
  | false => exact csumRecv_append hpos hmod hck hsum (eacAdd_onesComplement sum) (by simp [allBits, rep])
  | true =>
    obtain ⟨sum', hsum', hlen', hres⟩ := exists_csumFold_firstFlipped hw hmod hpad hsum
    obtain ⟨final, hfinal, -⟩ := eacAdd_ok (hlen'.trans hck.symm)
    exact csumRecv_append hpos (by rwa [if_pos rfl, firstFlipped_length]) hck hsum' hfinal
      (allBits_true_eq_false_of_not_modEq hlen hlen' hres hfinal)

theorem two_le_frameWidth (n : Nat) : 2 ≤ frameWidth n := by
  unfold frameWidth
  split <;> decide

end Sys2Proof.Machine

open Sys2Proof Sys2Proof.Machine

/-- Settles O24: the sum and its complement leave the residue 0, and an injected flip moves the sum off its residue, so
the receiver sees all ones exactly without one. -/
theorem checksumCompletes : Obligations.ChecksumCompletes := by
  unfold Obligations.ChecksumCompletes
  intro inj gsup s e d hs hd hne
  have hw : 2 ≤ frameWidth d.length := two_le_frameWidth d.length
  have hpos : 0 < frameWidth d.length := by omega
  have hv : e.validate .checksum gsup = .ok () := Engine.validate_of_operands .checksum gsup hd hne nofun
  obtain ⟨sum, hsum, hlen, hsend⟩ := csumSend_ok hne hpos
  have hfold := (csumFold_eq_ok_iff (partition_padLeft_ne_nil hne hpos) fun _ => partition_block_length).mp hsum
  refine ⟨frameWidth d.length, padLeft d (frameWidth d.length), sum, onesComplement sum, _, rfl,
    padLeft_eq_frameZeros d hpos, hsum, hlen, rfl, ?residue, ?ones, rfl, ?next⟩
  case residue =>
    rw [Nat.add_comm]
    exact (hfold.residue.symm.add_right _).trans (val_add_val_onesComplement_modEq_zero hlen)
  case ones =>
    rw [val_onesComplement_eq_iff hlen, hfold.zero_iff, sum_map_val_partition_padLeft_eq_zero_iff d hpos]
  case next =>
    exact exec_of_runStages hs (checksumRun_eq_runStages inj hv hd) hsend (csumRecv_channel_sent inj hne hw hsum hlen)

end

section
/-! PROOFS. LengthMismatch, which no command word reaches, O30, and the recorded faults along a run, O51
(60_exceptions.md). -/

namespace Sys2Proof.Machine

/-! ### LengthMismatch -/

/-- R222 and R74 assign LengthMismatch to no command word (R224). -/
theorem failureOf_ne_lengthMismatch (v : Byte) (e : Engine) : failureOf v e ≠ some .lengthMismatch := by
  unfold failureOf
  split_ifs <;> nofun

/-- No command word has the outcome LengthMismatch: it has the failure of `failureOf`, or else completes (R224). -/
theorem execute_ne_lengthMismatch (v : Byte) (e : Engine) : execute v e ≠ .error .lengthMismatch := by
  intro h
  cases hf : failureOf v e with
  | none =>
    obtain ⟨r, hr, -⟩ := execute_of_failureOf_none hf
    cases hr.symm.trans h
  | some f =>
    cases (execute_of_failureOf_some hf).symm.trans h
    exact failureOf_ne_lengthMismatch v e hf

/-- A failure taken on an instance commits R223's registers there. -/
theorem State.takeFailure_some {s : State} {e : Engine} (h : s.selected = some e) (f : Failure) :
    s.takeFailure f = .next (s.setSelected (e.withFailure f)) := by
  rw [State.takeFailure, State.command_some h, Engine.commit_error, Engine.commitFailure_eq_withFailure]

/-! ### The recorded faults -/

/-- A step removes no recorded fault (R233). -/
theorem stepWith_faults_prefix {p : Params} {s t : State} (h : stepWith p s = .next t) : s.faults <+: t.faults := by
  obtain heq | ⟨k, r, rest, e, -, -, -, heq⟩ := stepWith_next_faults h
  · exact heq ▸ List.prefix_rfl
  · exact heq ▸ List.prefix_append _ _

/-- A run of one or more steps that ends in a next state goes on from its first step's. -/
theorem exists_stepWith_of_run_succ_next {p : Params} {s t : State} {k : Nat}
    (h : (coreFor p).run (k + 1) s = .next t) : ∃ u, stepWith p s = .next u ∧ (coreFor p).run k u = .next t := by
  cases hs : stepWith p s with
  | next u => exact ⟨u, rfl, run_succ_next hs k ▸ h⟩
  | fault x => cases x
  | refused q => cases (run_succ_refused hs k).symm.trans h

/-- A run removes no recorded fault (R233). -/
theorem run_faults_prefix {p : Params} {s t : State} {k : Nat} (h : (coreFor p).run k s = .next t) :
    s.faults <+: t.faults := by
  induction k generalizing s with
  | zero => cases h; exact List.prefix_rfl
  | succ k ih =>
    obtain ⟨u, hstep, hrun⟩ := exists_stepWith_of_run_succ_next h
    exact (stepWith_faults_prefix hstep).trans (ih hrun)

/-- A run from a faulted state ends faulted (R233). -/
theorem State.Faulted.run {p : Params} {s t : State} {k : Nat} (hf : s.Faulted)
    (h : (coreFor p).run k s = .next t) : t.Faulted :=
  (run_faults_prefix h).ne_nil hf

end Sys2Proof.Machine

open Sys2Proof Sys2Proof.Machine

/-- Settles O30: a command word's only failures are those of `failureOf`, and a failure taken commits its STATUS
word. -/
theorem lengthMismatchUnreachable : Obligations.LengthMismatchUnreachable := by
  unfold Obligations.LengthMismatchUnreachable
  exact ⟨execute_ne_lengthMismatch, fun a b h => ⟨bitXor_of_length_ne h, fixedWidthIncrement_of_length_ne h⟩,
    fun s e h => State.takeFailure_some h .lengthMismatch⟩

/-- Settles O51: each step only appends to the recorded faults, so by induction on the number of steps a run does. -/
theorem recordedFaultsStay : Obligations.RecordedFaultsStay := by
  unfold Obligations.RecordedFaultsStay
  refine fun p s k => ⟨fun t => run_faults_prefix, fun hf hgood => ?_⟩
  obtain ⟨t, hrun, ht⟩ := hgood
  exact ht (hf.run hrun)

end

section
/-! PROOFS. Operand writes that fit, O39, and the reads that find no value, by STATE, O49 (70_reset_and_hazards.md). -/

namespace Sys2Proof.Machine

/-! ### Operand writes -/

/-- A string that exceeds no bound fits (R55). -/
theorem fits_eq_true {cap : Option Nat} {n : Nat} (h : ∀ c, cap = some c → n ≤ c) : Params.fits cap n = true := by
  cases cap with
  | none => rfl
  | some c => exact decide_eq_true (h c rfl)

/-! ### Reads by STATE -/

/-- STATE is DONE in exactly two of the STATUS words that an instance can hold (R23, R129). -/
theorem Engine.Inv.statusState_eq_done_iff {p : Params} {e : Engine} (h : e.Inv p) :
    statusState e.status = stateDone ↔ e.status = 0x01#8 ∨ e.status = 0x05#8 := by
  have hwords : ∀ w ∈ [0x00#8, 0x01#8, 0x05#8, 0x12#8, 0x22#8, 0x32#8, 0x52#8],
      (statusState w = stateDone ↔ w = 0x01#8 ∨ w = 0x05#8) := by decide
  exact hwords e.status h.status

/-- The registers without a value are ORIG, TX and RX while STATE is not DONE (R37, R253). -/
theorem Engine.Inv.readRegister_eq_none_iff {p : Params} {e : Engine} (h : e.Inv p) (r : HostRegister) :
    e.readRegister r = none ↔ 4 ≤ r.number ∧ statusState e.status ≠ stateDone := by
  rw [Ne, h.statusState_eq_done_iff]
  by_cases hdone : e.status = 0x01#8 ∨ e.status = 0x05#8
  · obtain ⟨d, tx, rx, hd, htx, hrx, -⟩ := h.held hdone
    cases r <;> simp [Engine.readRegister, hdone, hd, htx, hrx]
  · obtain ⟨hd, htx, hrx⟩ := h.notHeld hdone
    cases r <;> simp [Engine.readRegister, HostRegister.number, hdone, hd, htx, hrx]

theorem HostRegister.number_le (r : HostRegister) : r.number ≤ 6 := by
  cases r <;> decide

theorem State.Inv.engine {p : Params} {s : State} {k : Nat} {e : Engine} (h : s.Inv p) (he : s.engines[k]? = some e) :
    e.Inv p :=
  h.2 e (List.mem_of_getElem? he)

/-- A step that adds a fault takes a read of ORIG, TX or RX while STATE is not DONE (R253). -/
theorem not_readsOnlyHeld_of_faults_ne {p : Params} {s t : State} (h : s.Inv p) (hstep : stepWith p s = .next t)
    (hne : t.faults ≠ s.faults) : ¬ReadsOnlyHeld s := by
  obtain heq | ⟨k, r, rest, e, hp, he, hv, -⟩ := stepWith_next_faults hstep
  · exact absurd heq hne
  · obtain ⟨hr, hstate⟩ := ((h.engine he).readRegister_eq_none_iff r).mp hv
    exact fun hheld => hstate (hheld k r.number rest e hp he hr (HostRegister.number_le r))

/-- A read of ORIG, TX or RX while STATE is not DONE is a step that adds a fault (R233, R253). -/
theorem exists_faults_ne_of_not_readsOnlyHeld {p : Params} {s : State} (h : s.Inv p) (hread : ¬ReadsOnlyHeld s) :
    ∃ t, stepWith p s = .next t ∧ t.faults ≠ s.faults := by
  unfold ReadsOnlyHeld at hread
  push Not at hread
  obtain ⟨k, reg, rest, e, hp, he, hlow, hhigh, hstate⟩ := hread
  obtain ⟨r, rfl⟩ := HostRegister.exists_number_eq hhigh
  have hv := ((h.engine he).readRegister_eq_none_iff r).mpr ⟨hlow, hstate⟩
  exact ⟨_, stepWith_read_of_none p r hp he hv, by simp⟩

end Sys2Proof.Machine

open Sys2Proof Sys2Proof.Machine

/-- Settles O39: each is its register's case of `hostWrite` on a string that fits. -/
theorem operandWriteStoresString : Obligations.OperandWriteStoresString := by
  unfold Obligations.OperandWriteStoresString
  intro p s k syms rest e he
  constructor
  · intro hp hfits
    rw [stepWith_write p hp he, hostWrite_data_of_fits e _ (fits_eq_true hfits)]
    rfl
  · intro hp hfits
    rw [stepWith_write p hp he, hostWrite_gen_of_fits e _ (fits_eq_true hfits)]
    rfl

/-- Settles O49: the only faults are reads of a register without a value, and under the invariant those are the reads
of ORIG, TX and RX while STATE is not DONE. -/
theorem faultsExactlyOnReadsWhileNotDone : Obligations.FaultsExactlyOnReadsWhileNotDone := by
  unfold Obligations.FaultsExactlyOnReadsWhileNotDone
  intro p s h
  constructor
  · rintro ⟨t, hstep, hne⟩
    exact not_readsOnlyHeld_of_faults_ne h hstep hne
  · exact exists_faults_ne_of_not_readsOnlyHeld h

end

section
/-! PROOFS. A taken access as an update of the instance it names, and what every step keeps of each instance's
registers; O45 and O46 (10_state.md, 60_exceptions.md). -/

namespace Sys2Proof.Machine

/-! ### A taken access as an update of one instance -/

/-- The registers that a taken access leaves in the instance it names. A read changes none; the other writes of the last
case are refused. -/
def Engine.afterOp (e : Engine) : HostOp → Engine
  | .write 0 (.word v) => Engine.commit { e with cmd := v } (execute v e)
  | .write 2 (.symbols syms) => { e with data := syms }
  | .write 3 (.symbols syms) => { e with gen := syms }
  | _ => e

/-- A taken access is a well-formed one to an instance, and writes no register but that instance's (R20, R54). -/
theorem takeEvent_access_next {p : Params} {k : Nat} {op : HostOp} {s t : State}
    (h : takeEvent p (.access k op) s = .next t) :
    ∃ e, s.engines[k]? = some e ∧ op.wf p = true ∧ t.engines = s.engines.set k (e.afterOp op) := by
  obtain ⟨e, he, hcases⟩ := hostAccess_next_cases h
  have hread {reg : Nat} {r : HostRegister} (hr : HostRegister.ofNumber reg = some r) :
      HostOp.wf p (.read reg) = true ∧ s.engines = s.engines.set k e := by
    obtain rfl := HostRegister.number_of_ofNumber hr
    obtain ⟨hk, rfl⟩ := List.getElem?_eq_some_iff.mp he
    exact ⟨decide_eq_true (HostRegister.number_le r), (List.set_getElem_self hk).symm⟩
  refine ⟨e, he, ?_⟩
  obtain ⟨v, rfl, rfl⟩ | ⟨syms, rfl, hfits, rfl⟩ | ⟨syms, rfl, hfits, rfl⟩ | ⟨reg, r, v, rfl, hr, -, rfl⟩ |
    ⟨reg, r, rfl, hr, -, rfl⟩ := hcases
  · exact ⟨rfl, rfl⟩
  · exact ⟨hfits, rfl⟩
  · exact ⟨hfits, rfl⟩
  · exact hread hr
  · exact hread hr

/-- All that a step can do to the registers: nothing, a reset of every instance, or a well-formed access to one. -/
theorem stepWith_next_engines {p : Params} {s t : State} (hstep : stepWith p s = .next t) :
    t.engines = s.engines ∨ t.engines = List.replicate s.engines.length Engine.reset ∨
      ∃ k op e, s.engines[k]? = some e ∧ op.wf p = true ∧ t.engines = s.engines.set k (e.afterOp op) := by
  cases hp : s.pending with
  | nil =>
    cases hstep.symm.trans (stepWith_nil p hp)
    exact .inl rfl
  | cons ev rest =>
    cases ev with
    | reset =>
      cases hstep.symm.trans (stepWith_reset p hp)
      exact .inr (.inl rfl)
    | access k op =>
      rw [stepWith_cons p hp] at hstep
      obtain ⟨e, he, hwf, ht⟩ := takeEvent_access_next hstep
      exact .inr (.inr ⟨k, op, e, he, hwf, ht⟩)

/-- No step changes the number of instances (R7, R20). -/
theorem stepWith_engines_length {p : Params} {s t : State} (hstep : stepWith p s = .next t) :
    t.engines.length = s.engines.length := by
  obtain ht | ht | ⟨k, op, e, -, -, ht⟩ := stepWith_next_engines hstep <;> simp [ht]

/-! ### What every step keeps of each instance -/

/-- A property of an instance's registers that reset has, and that a CMD write and a write of an operand that fits
keep. -/
structure Engine.Kept (p : Params) (P : Engine → Prop) : Prop where
  reset : P Engine.reset
  command : ∀ (e : Engine) (v : Byte), P e → P (Engine.commit { e with cmd := v } (execute v e))
  data : ∀ (e : Engine) (syms : List Symbol), Params.fits p.maxDataLen syms.length = true → P e →
    P { e with data := syms }
  gen : ∀ (e : Engine) (syms : List Symbol), Params.fits p.maxGenLen syms.length = true → P e →
    P { e with gen := syms }

theorem Engine.Kept.afterOp {p : Params} {P : Engine → Prop} (hP : Engine.Kept p P) {e : Engine} {op : HostOp}
    (hwf : op.wf p = true) (h : P e) : P (e.afterOp op) := by
  obtain ⟨r, rfl⟩ | ⟨v, rfl⟩ | ⟨syms, rfl, hfits⟩ | ⟨syms, rfl, hfits⟩ := HostOp.wf_cases hwf
  · exact h
  · exact hP.command e v h
  · exact hP.data e syms hfits h
  · exact hP.gen e syms hfits h

/-- Such a property of every instance is kept by every step. -/
theorem Engine.Kept.stepWith {p : Params} {P : Engine → Prop} (hP : Engine.Kept p P) {s t : State}
    (hstep : stepWith p s = .next t) (h : ∀ e ∈ s.engines, P e) : ∀ e ∈ t.engines, P e := by
  intro e he
  obtain ht | ht | ⟨k, op, e', he', hwf, ht⟩ := stepWith_next_engines hstep <;> rw [ht] at he
  · exact h e he
  · rw [List.eq_of_mem_replicate he]
    exact hP.reset
  · obtain hmem | rfl := List.mem_or_eq_of_mem_set he
    · exact h e hmem
    · exact hP.afterOp hwf (h e' (List.mem_of_getElem? he'))

/-! ### The outcome of a command word by its number -/

/-- The failure of a command word is the one that R222 and R74 assign to it. -/
theorem failureOf_of_execute_error {v : Byte} {e : Engine} {f : Failure} (h : execute v e = .error f) :
    failureOf v e = some f := by
  cases hf : failureOf v e with
  | none =>
    obtain ⟨r, hr, -⟩ := execute_of_failureOf_none hf
    cases hr.symm.trans h
  | some f' =>
    cases (execute_of_failureOf_some hf).symm.trans h
    rfl

/-- ReservedCommand is the failure of the words from 16 on, and of no other (R74, R77). -/
theorem eq_reservedCommand_iff_of_failureOf {v : Byte} {e : Engine} {f : Failure} (h : failureOf v e = some f) :
    f = .reservedCommand ↔ 16 ≤ v.toNat := by
  unfold failureOf at h
  split_ifs at h with hv <;> cases h <;> simp [hv]

/-- Only a legal word completes (R77). -/
theorem toNat_lt_of_execute_ok {v : Byte} {e : Engine} {r : CommandResult} (h : execute v e = .ok r) :
    v.toNat < 16 := by
  by_contra hv
  obtain ⟨i, hi, -⟩ := exists_runInstr_of_execute_ok h
  cases hi.symm.trans (decode_of_reserved (Nat.not_lt.mp hv))

/-! ### The invariant of an instance -/

theorem Engine.inv_reset (p : Params) : Engine.Inv p Engine.reset where
  status := by decide
  idle _ := rfl
  reserved h := absurd rfl h
  held h := absurd h (by decide)
  notHeld _ := ⟨rfl, rfl, rfl⟩
  dataFits := fits_eq_true fun c _ => Nat.zero_le c
  genFits := fits_eq_true fun c _ => Nat.zero_le c

theorem failureWord_ne_idle (f : Failure) : failureWord f ≠ 0x00#8 := by
  cases f <;> decide

theorem failureWord_ne_done (f : Failure) : ¬(failureWord f = 0x01#8 ∨ failureWord f = 0x05#8) := by
  cases f <;> decide

theorem failureWord_eq_reserved_iff (f : Failure) : failureWord f = 0x52#8 ↔ f = .reservedCommand := by
  cases f <;> decide

/-- The failures that a command can have leave one of the seven STATUS words of a run (R223, R224). -/
theorem failureWord_mem {f : Failure} (hf : f ≠ .lengthMismatch) :
    failureWord f ∈ [0x00#8, 0x01#8, 0x05#8, 0x12#8, 0x22#8, 0x32#8, 0x52#8] := by
  cases f with
  | lengthMismatch => contradiction
  | _ => decide

/-- A failed command word leaves its failure in STATUS, and no result (R223). -/
theorem Engine.Inv.withFailure {p : Params} {e : Engine} {v : Byte} {f : Failure} (h : e.Inv p)
    (hf : failureOf v e = some f) : Engine.Inv p ({ e with cmd := v }.withFailure f) where
  status := failureWord_mem fun h0 => failureOf_ne_lengthMismatch v e (h0 ▸ hf)
  idle h0 := absurd h0 (failureWord_ne_idle f)
  reserved _ := (failureWord_eq_reserved_iff f).trans (eq_reservedCommand_iff_of_failureOf hf)
  held h0 := absurd h0 (failureWord_ne_done f)
  notHeld _ := ⟨rfl, rfl, rfl⟩
  dataFits := h.dataFits
  genFits := h.genFits

theorem Engine.withResult_status (e : Engine) (d tx rx : Bits) (err : Bool) :
    (e.withResult d tx rx err).status = 0x01#8 ∨ (e.withResult d tx rx err).status = 0x05#8 := by
  cases err
  · exact .inl rfl
  · exact .inr rfl

/-- R129's STATUS words are of a run's, and neither IDLE's nor ReservedCommand's. -/
theorem done_status_facts {w : Byte} (h : w = 0x01#8 ∨ w = 0x05#8) :
    w ∈ [0x00#8, 0x01#8, 0x05#8, 0x12#8, 0x22#8, 0x32#8, 0x52#8] ∧ w ≠ 0x00#8 ∧ w ≠ 0x52#8 := by
  obtain rfl | rfl := h <;> decide

/-- A completed command word leaves its verdict in STATUS, and the whole result (R26 to R28, R129). -/
theorem Engine.Inv.withResult {p : Params} {e : Engine} {v : Byte} {r : CommandResult} (h : e.Inv p)
    (hr : execute v e = .ok r) : Engine.Inv p ({ e with cmd := v }.withResult r.orig r.tx r.rx r.err) := by
  obtain ⟨-, hne, hlt, hrx⟩ := execute_ok_result hr
  have hlegal : ¬16 ≤ v.toNat := Nat.not_le.mpr (toNat_lt_of_execute_ok hr)
  have hdone := Engine.withResult_status { e with cmd := v } r.orig r.tx r.rx r.err
  obtain ⟨hmem, hidle, hreserved⟩ := done_status_facts hdone
  exact {
    status := hmem
    idle := fun h0 => absurd h0 hidle
    reserved := fun _ => iff_of_false hreserved hlegal
    held := fun _ => ⟨r.orig, r.tx, r.rx, rfl, rfl, rfl, hne, hlt, hrx⟩
    notHeld := fun h0 => absurd hdone h0
    dataFits := h.dataFits
    genFits := h.genFits }

/-- Every next state of an instance keeps the invariant. -/
theorem Engine.inv_kept (p : Params) : Engine.Kept p (Engine.Inv p) where
  reset := Engine.inv_reset p
  command e v h := by
    cases hv : execute v e with
    | ok r =>
      rw [Engine.commit_ok, Engine.commitSuccess_eq_withResult]
      exact h.withResult hv
    | error f =>
      rw [Engine.commit_error, Engine.commitFailure_eq_withFailure]
      exact h.withFailure (failureOf_of_execute_error hv)
  data e syms hfits h := { h with dataFits := hfits }
  gen e syms hfits h := { h with genFits := hfits }

theorem State.inv_resetFor (p : Params) : State.Inv p (State.resetFor p) := by
  refine ⟨List.length_replicate, fun e he => ?_⟩
  rw [State.eq_reset_of_mem_resetFor he]
  exact Engine.inv_reset p

theorem State.Inv.stepWith {p : Params} {s t : State} (h : s.Inv p) (hstep : stepWith p s = .next t) : t.Inv p :=
  ⟨(stepWith_engines_length hstep).trans h.1, (Engine.inv_kept p).stepWith hstep h.2⟩

end Sys2Proof.Machine

open Sys2Proof Sys2Proof.Machine

/-- Settles O45: a reset instance is IDLE, with CMD 0x00 and nothing held. -/
theorem invariantHoldsAtReset : Obligations.InvariantHoldsAtReset := by
  unfold Obligations.InvariantHoldsAtReset
  exact ⟨State.inv_resetFor, State.inv_resetFor Config.params⟩

/-- Settles O46: a step resets every instance, or changes one: an operand that fits, or CMD with the word's failure or
its result. -/
theorem everyStepKeepsInvariant : Obligations.EveryStepKeepsInvariant := by
  unfold Obligations.EveryStepKeepsInvariant
  exact ⟨fun p s t h hstep => h.stepWith hstep, fun s t h hstep => h.stepWith hstep⟩

end

section
/-! PROOFS. The verdict of each command by INJ, and the verdict invariant; O47 and O48 (42_vrc.md to 45_checksum.md). -/

namespace Sys2Proof.Machine

/-! ### The verdict of a completed command -/

/-- Stages that answer leave the receiver's verdict (R121). -/
theorem err_of_runStages {d tx : Bits} {send : Except Failure Bits} {inj : Bool} {recv : Bits → Except Failure Bool}
    {err : Bool} {r : CommandResult} (h : runStages d send inj recv = .ok r) (hs : send = .ok tx)
    (hrecv : recv (channel tx inj) = .ok err) : r.err = err := by
  obtain ⟨tx', err', htx, herr, rfl⟩ := runStages_ok_iff.mp h
  cases hs.symm.trans htx
  exact Except.ok.inj (herr.symm.trans hrecv)

/-- The verdict is INJ, but that CRC need not see the injected flip (corner cases of R142, R153, R174, R193). -/
theorem runInstr_ok_err {t : Technique} {inj gsup : Bool} {e : Engine} {r : CommandResult}
    (h : runInstr (t.toInstr inj gsup) e = .ok r) : ∃ seen, r.err = (inj && seen) ∧ (t ≠ .crc → seen = true) := by
  have hv := validate_of_runInstr_ok h
  obtain ⟨d, hd, hne, -⟩ := Engine.operands_of_validate hv
  have hall (herr : r.err = inj) : ∃ seen, r.err = (inj && seen) ∧ (t ≠ .crc → seen = true) :=
    ⟨true, by rw [herr, Bool.and_true], fun _ => rfl⟩
  cases t with
  | vrc =>
    rw [Technique.toInstr, runInstr, vrcRun_eq_runStages inj hv hd] at h
    exact hall (err_of_runStages h rfl (congrArg Except.ok (vrcRecv_channel_vrcSend d inj)))
  | lrc =>
    rw [Technique.toInstr, runInstr, lrcRun_eq_runStages inj hv hd] at h
    exact hall (err_of_runStages h rfl (congrArg Except.ok (lrcRecv_channel_lrcSend d inj (blockWidth_pos _))))
  | crc =>
    obtain ⟨g, hg⟩ := exists_generatorIs hv
    obtain ⟨hop, hl⟩ := generatorOperand_ok hg
    have hg1 : 1 ≤ g.length := Nat.one_le_of_lt hl
    obtain ⟨rem, hrem, hlen, hsend⟩ := crcSend_ok hne hg1
    rw [Technique.toInstr, runInstr, crcRun_eq_runStages inj hv hd hop] at h
    exact ⟨_, err_of_runStages h hsend (crcRecv_channel_sent inj hne hg1 hrem hlen), fun hcrc => absurd rfl hcrc⟩
  | checksum =>
    obtain ⟨sum, hsum, hlen, hsend⟩ := csumSend_ok hne (blockWidth_pos d.length)
    rw [Technique.toInstr, runInstr, checksumRun_eq_runStages inj hv hd] at h
    exact hall (err_of_runStages h hsend (csumRecv_channel_sent inj hne (two_le_frameWidth _) hsum hlen))

@[simp] theorem cmdInj_commandWord (t : Technique) (inj gsup : Bool) : cmdInj (commandWord t inj gsup) = inj := by
  cases t <;> cases inj <;> cases gsup <;> rfl

@[simp] theorem cmdTech_commandWord (t : Technique) (inj gsup : Bool) : cmdTech (commandWord t inj gsup) = t.code := by
  cases t <;> cases inj <;> cases gsup <;> rfl

/-- The verdict of a completed command word by the word's fields. -/
theorem execute_ok_err {v : Byte} {e : Engine} {r : CommandResult} (h : execute v e = .ok r) :
    ∃ seen, r.err = (cmdInj v && seen) ∧ (cmdTech v ≠ 2#2 → seen = true) := by
  obtain ⟨t, inj, gsup, rfl⟩ := exists_commandWord_eq (toNat_lt_of_execute_ok h)
  rw [execute_commandWord] at h
  obtain ⟨seen, herr, hseen⟩ := runInstr_ok_err h
  refine ⟨seen, by rw [herr, cmdInj_commandWord], fun htech => hseen ?_⟩
  rintro rfl
  exact htech (cmdTech_commandWord .crc inj gsup)

/-! ### The verdict invariant -/

theorem Engine.verdictInv_of_not_done {e : Engine} (h : ¬(e.status = 0x01#8 ∨ e.status = 0x05#8)) : e.VerdictInv where
  onlyInjected h5 := absurd (.inr h5) h
  injectedSeen h1 := absurd (.inl h1) h

/-- The STATUS of a result shows its verdict (R129). -/
theorem Engine.withResult_status_eq_done_iff (e : Engine) (d tx rx : Bits) (err : Bool) :
    ((e.withResult d tx rx err).status = 0x05#8 ↔ err = true) ∧
      ((e.withResult d tx rx err).status = 0x01#8 ↔ err = false) := by
  cases err <;> simp [Engine.withResult]

theorem Engine.verdictInv_withResult {e : Engine} {v : Byte} {r : CommandResult} (hr : execute v e = .ok r) :
    Engine.VerdictInv ({ e with cmd := v }.withResult r.orig r.tx r.rx r.err) := by
  obtain ⟨seen, herr, hseen⟩ := execute_ok_err hr
  obtain ⟨h5, h1⟩ := Engine.withResult_status_eq_done_iff { e with cmd := v } r.orig r.tx r.rx r.err
  refine ⟨fun hs => ?onlyInjected, fun hs hinj => ?injectedSeen⟩
  case onlyInjected =>
    have hboth : cmdInj v && seen := herr ▸ h5.mp hs
    exact (Bool.and_eq_true_iff.mp hboth).1
  case injectedSeen =>
    by_contra htech
    have hinj' : cmdInj v = true := hinj
    rw [h1.mp hs, hinj', hseen htech] at herr
    cases herr

/-- Every next state of an instance keeps the verdict invariant. -/
theorem Engine.verdictInv_kept (p : Params) : Engine.Kept p Engine.VerdictInv where
  reset := Engine.verdictInv_of_not_done (by decide)
  command e v _ := by
    cases hv : execute v e with
    | ok r =>
      rw [Engine.commit_ok, Engine.commitSuccess_eq_withResult]
      exact Engine.verdictInv_withResult hv
    | error f =>
      rw [Engine.commit_error, Engine.commitFailure_eq_withFailure]
      exact Engine.verdictInv_of_not_done (failureWord_ne_done f)
  data _ _ _ h := ⟨h.onlyInjected, h.injectedSeen⟩
  gen _ _ _ h := ⟨h.onlyInjected, h.injectedSeen⟩

end Sys2Proof.Machine

open Sys2Proof Sys2Proof.Machine

/-- Settles O47: a reset instance is not DONE. -/
theorem verdictInvariantHoldsAtReset : Obligations.VerdictInvariantHoldsAtReset := by
  unfold Obligations.VerdictInvariantHoldsAtReset
  intro p e he
  rw [State.eq_reset_of_mem_resetFor he]
  exact (Engine.verdictInv_kept p).reset

/-- Settles O48: a CMD write leaves the verdict of its own word, which is INJ for VRC, LRC and CHECKSUM, and at most
INJ for CRC. -/
theorem everyStepKeepsVerdictInvariant : Obligations.EveryStepKeepsVerdictInvariant := by
  unfold Obligations.EveryStepKeepsVerdictInvariant
  exact fun p s t h hstep => (Engine.verdictInv_kept p).stepWith hstep h

end

section
/-! PROOFS. Whole runs on inputs that the interface admits: where they end and which faults they record; O50
(70_reset_and_hazards.md). -/

namespace Sys2Proof.Machine

/-- A well-formed input is taken from a state of N_INSTANCES instances (R20, R54). -/
theorem exists_stepWith_next_of_wf {p : Params} {s : State} (h : s.Inv p) (hwf : ∀ ev ∈ s.pending, ev.wf p = true) :
    ∃ t, stepWith p s = .next t := by
  cases hp : s.pending with
  | nil => exact ⟨s, stepWith_nil p hp⟩
  | cons ev rest =>
    have hev : ev.wf p = true := hwf ev (by simp [hp])
    cases ev with
    | reset => exact ⟨_, stepWith_reset p hp⟩
    | access k op =>
      obtain ⟨hk, hop⟩ := Bool.and_eq_true_iff.mp hev
      have hlt : k < s.engines.length := h.1 ▸ of_decide_eq_true hk
      exact stepWith_wf_access_next hp (List.getElem?_eq_getElem hlt) hop

/-- The input read while not DONE, when no step has been taken yet. -/
theorem readsWhileNotDone_zero_iff {p : Params} {s : State} {n : Nat} {r : HostRegister} :
    ReadsWhileNotDone p s 0 n r ↔ s.pending[0]? = some (.access n (.read r.number)) ∧ 4 ≤ r.number ∧
      ∃ e, s.engines[n]? = some e ∧ statusState e.status ≠ stateDone := by
  constructor
  · rintro ⟨hp, hr, t, e, hrun, he, hstate⟩
    cases hrun
    exact ⟨hp, hr, e, he, hstate⟩
  · rintro ⟨hp, hr, e, he, hstate⟩
    exact ⟨hp, hr, s, e, rfl, he, hstate⟩

/-- After a step the later inputs are one place nearer. -/
theorem readsWhileNotDone_succ_iff {p : Params} {s t : State} (hstep : stepWith p s = .next t) (j n : Nat)
    (r : HostRegister) : ReadsWhileNotDone p s (j + 1) n r ↔ ReadsWhileNotDone p t j n r := by
  rw [ReadsWhileNotDone, ReadsWhileNotDone, stepWith_next_pending hstep, List.getElem?_tail, run_succ_next hstep]

/-- The faults after a step are those before it and that of its own input (R233, R253). -/
theorem mem_faults_stepWith_iff {p : Params} {s t : State} (h : s.Inv p) (hstep : stepWith p s = .next t)
    (x : ReadUnwritten) : x ∈ t.faults ↔ x ∈ s.faults ∨ ReadsWhileNotDone p s 0 x.engine x.reg := by
  rw [readsWhileNotDone_zero_iff]
  constructor
  · intro hx
    obtain heq | ⟨k, r, rest, e, hp, he, hv, heq⟩ := stepWith_next_faults hstep
    · exact .inl (heq ▸ hx)
    · rw [heq, List.mem_append, List.mem_singleton] at hx
      obtain hold | rfl := hx
      · exact .inl hold
      · obtain ⟨hr, hstate⟩ := ((h.engine he).readRegister_eq_none_iff r).mp hv
        exact .inr ⟨by rw [hp]; rfl, hr, e, he, hstate⟩
  · rintro (hold | ⟨hp, hr, e, he, hstate⟩)
    · exact (stepWith_faults_prefix hstep).subset hold
    · obtain ⟨rest, hpending⟩ : ∃ rest, s.pending = .access x.engine (.read x.reg.number) :: rest := by
        rw [← List.head?_eq_getElem?, List.head?_eq_some_iff] at hp
        exact hp
      have hv := ((h.engine he).readRegister_eq_none_iff x.reg).mpr ⟨hr, hstate⟩
      cases hstep.symm.trans (stepWith_read_of_none p x.reg hpending he hv)
      exact List.mem_append_right _ (List.mem_singleton.mpr rfl)

/-- A run on well-formed inputs takes them in order, and adds the faults of those that read while not DONE. -/
theorem exists_run_next_of_wf {p : Params} {s : State} (h : s.Inv p) (hwf : ∀ ev ∈ s.pending, ev.wf p = true)
    (k : Nat) : ∃ t, (coreFor p).run k s = .next t ∧ t.pending = s.pending.drop k ∧
      ∀ x : ReadUnwritten, x ∈ t.faults ↔ x ∈ s.faults ∨ ∃ j < k, ReadsWhileNotDone p s j x.engine x.reg := by
  induction k generalizing s with
  | zero => exact ⟨s, rfl, rfl, by simp⟩
  | succ k ih =>
    obtain ⟨u, hstep⟩ := exists_stepWith_next_of_wf h hwf
    have hpending := stepWith_next_pending hstep
    have hwf' : ∀ ev ∈ u.pending, ev.wf p = true := fun ev hev => hwf ev (List.mem_of_mem_tail (hpending ▸ hev))
    obtain ⟨t, hrun, hdrop, hfaults⟩ := ih (h.stepWith hstep) hwf'
    refine ⟨t, (run_succ_next hstep k).trans hrun, by rw [hdrop, hpending, List.drop_tail], fun x => ?_⟩
    rw [hfaults, mem_faults_stepWith_iff h hstep, Nat.exists_lt_succ_left, or_assoc]
    simp only [readsWhileNotDone_succ_iff hstep]

end Sys2Proof.Machine

open Sys2Proof Sys2Proof.Machine

/-- Settles O50: by induction on the number of steps, each of which takes its input and records its fault, if it has
one. -/
theorem runsFaultExactlyAtReadsWhileNotDone : Obligations.RunsFaultExactlyAtReadsWhileNotDone := by
  unfold Obligations.RunsFaultExactlyAtReadsWhileNotDone
  refine ⟨rfl, fun p s h hnone hwf k => ?_⟩
  obtain ⟨t, hrun, hdrop, hfaults⟩ := exists_run_next_of_wf h hwf k
  have hstart : s.faults = [] := not_not.mp hnone
  simp only [hstart, List.not_mem_nil, false_or] at hfaults
  refine ⟨⟨t, hrun, hdrop, hfaults⟩, ?_⟩
  constructor
  · rintro ⟨t', hrun', hgood⟩ ⟨j, hj, n, r, hread⟩
    cases hrun.symm.trans hrun'
    exact hgood (List.ne_nil_of_mem ((hfaults ⟨n, r⟩).mpr ⟨j, hj, hread⟩))
  · intro hread
    refine ⟨t, hrun, fun hfaulted => hread ?_⟩
    obtain ⟨x, hx⟩ := List.exists_mem_of_ne_nil _ hfaulted
    obtain ⟨j, hj, hx⟩ := (hfaults x).mp hx
    exact ⟨j, hj, x.engine, x.reg, hx⟩

end

section
/-! PROOFS. Encoding and decoding, the conversion of symbols, and the blocks of a string; O2, O3, O5 and O11
(30_encoding.md, 41_invocation.md). -/

namespace Sys2Proof

@[simp] theorem encode_toInstr (t : Technique) (inj gsup : Bool) :
    encode (t.toInstr inj gsup) = commandWord t inj gsup := by
  cases t <;> rfl

/-- An instruction is a technique with its two flags (R70). -/
theorem exists_toInstr_eq (i : Instr) : ∃ t inj gsup, i = Technique.toInstr t inj gsup := by
  cases i with
  | vrc inj gsup => exact ⟨.vrc, inj, gsup, rfl⟩
  | lrc inj gsup => exact ⟨.lrc, inj, gsup, rfl⟩
  | crc inj gsup => exact ⟨.crc, inj, gsup, rfl⟩
  | checksum inj gsup => exact ⟨.checksum, inj, gsup, rfl⟩

@[simp] theorem decode_encode (i : Instr) : decode (encode i) = .ok i := by
  obtain ⟨t, inj, gsup, rfl⟩ := exists_toInstr_eq i
  rw [encode_toInstr, decode_commandWord]

/-- Only the words below 16 decode, each of them a command word, so a word is what its instruction encodes to. -/
theorem encode_of_decode {w : Byte} {i : Instr} (h : decode w = .ok i) : encode i = w := by
  have hw : w.toNat < 16 := by
    by_contra hge
    cases h.symm.trans (decode_of_reserved (Nat.not_lt.mp hge))
  obtain ⟨t, inj, gsup, rfl⟩ := exists_commandWord_eq hw
  cases h.symm.trans (decode_commandWord t inj gsup)
  exact encode_toInstr t inj gsup

end Sys2Proof

namespace Sys2Proof.Machine

theorem symbolBit_of_not_isBitSymbol {c : Symbol} (h : ¬isBitSymbol c = true) :
    symbolBit c = .error .invalidAlphabet := by
  have hc : c ≠ symbol0 ∧ c ≠ symbol1 := by simpa [isBitSymbol] using h
  simp [symbolBit, hc]

/-- A string with another symbol than the two of R75 does not convert. -/
theorem bits_of_not_all {syms : List Symbol} (h : ¬syms.all isBitSymbol = true) :
    bits syms = .error .invalidAlphabet := by
  induction syms with
  | nil => exact absurd rfl h
  | cons c syms ih =>
    by_cases hc : isBitSymbol c = true
    · obtain ⟨b, hb⟩ : ∃ b, symbolBit c = .ok b := by
        have hbit : c = symbol0 ∨ c = symbol1 := by simpa [isBitSymbol] using hc
        obtain rfl | rfl := hbit
        · exact ⟨false, rfl⟩
        · exact ⟨true, rfl⟩
      rw [bits, hb, ih (by simpa [hc] using h)]
      rfl
    · rw [bits, symbolBit_of_not_isBitSymbol hc]
      rfl

/-- A string converts to the bits it is the symbols of, and to no others (R75). -/
theorem bits_eq_ok_iff {syms : List Symbol} {d : Bits} : bits syms = .ok d ↔ syms = toSymbols d := by
  constructor
  · intro h
    by_cases hall : syms.all isBitSymbol = true
    · obtain ⟨d', rfl⟩ := exists_toSymbols hall
      rw [bits_toSymbols] at h
      cases h
      rfl
    · cases h.symm.trans (bits_of_not_all hall)
  · rintro rfl
    exact bits_toSymbols d

theorem bits_eq_error_iff {syms : List Symbol} :
    bits syms = .error .invalidAlphabet ↔ ¬syms.all isBitSymbol = true := by
  refine ⟨fun h hall => ?_, bits_of_not_all⟩
  obtain ⟨d, rfl⟩ := exists_toSymbols hall
  cases (bits_toSymbols d).symm.trans h

end Sys2Proof.Machine

open Sys2Proof Sys2Proof.Machine

/-- Settles O2: each legal word is a command word, and the other two are reserved. -/
theorem writtenOutWordsDecode : Obligations.WrittenOutWordsDecode := by
  unfold Obligations.WrittenOutWordsDecode
  exact ⟨decode_commandWord .vrc false false, decode_commandWord .vrc true false,
    decode_commandWord .lrc false true, decode_commandWord .lrc true false,
    decode_commandWord .crc false true, decode_commandWord .crc true false,
    decode_commandWord .checksum true true, decode_commandWord .checksum false false,
    decode_of_reserved (by decide), decode_of_reserved (by decide)⟩

/-- Settles O3: the words that decode are the command words, one for each technique and its two flags. -/
theorem decodeEncodeRoundTrip : Obligations.DecodeEncodeRoundTrip := by
  unfold Obligations.DecodeEncodeRoundTrip
  exact ⟨fun i _ => decode_encode i, fun w i => encode_of_decode⟩

/-- Settles O5: a string of bit symbols is the symbols of the bits it converts to, and no other string converts. -/
theorem symbolsConvertToBits : Obligations.SymbolsConvertToBits := by
  unfold Obligations.SymbolsConvertToBits
  intro syms
  refine ⟨fun d => ?converts, ?invalid⟩
  case converts => rw [← toSymbols_eq_map, bits_eq_ok_iff]
  case invalid => rw [bits_eq_error_iff, exists_bad_symbol_iff, Bool.not_eq_true', Bool.not_eq_true]

/-- Settles O11: a whole number of blocks leaves no rest. -/
theorem partitionSplitsInOrder : Obligations.PartitionSplitsInOrder := by
  unfold Obligations.PartitionSplitsInOrder
  exact fun s w hw h => ⟨partition_length s w, fun b => partition_block_length, flatten_partition hw h⟩

end

section
/-! PROOFS. The fuel of the wrap loop, O20 (40_bitarithmetic.md), and the division by an all-zero generator, O28
(44_crc.md). -/

namespace Sys2Proof.Machine

open Polynomial (X)

/-- An all-zero generator divides by a power of x (R170's corner case). -/
@[simp] theorem crcDivisor_zeros (l : Nat) : crcDivisor (rep l false) = X ^ (l - 1) := by
  have htail : (rep l false).tail = rep (l - 1) false := by simp [rep]
  rw [crcDivisor, htail, polyOf_zeros, rep_length, add_zero]

/-- The remainder by a power of x is the string's last bits. -/
theorem polyOf_append_modByMonic_X_pow (s t : Bits) : polyOf (s ++ t) %ₘ X ^ t.length = polyOf t := by
  have hmonic : (X ^ t.length : Polynomial (ZMod 2)).Monic := Polynomial.monic_X_pow _
  have hlow : (polyOf t).degree < (X ^ t.length : Polynomial (ZMod 2)).degree := by
    rw [Polynomial.degree_X_pow]
    exact degree_polyOf_lt t
  rw [polyOf_append, Polynomial.add_modByMonic, Polynomial.mul_self_modByMonic hmonic, zero_add,
    (Polynomial.modByMonic_eq_self_iff hmonic).mpr hlow]

/-- The division by an all-zero generator answers the last bits, as many as the remainder has (R170's corner case). -/
theorem mod2div_append_zeros {s t : Bits} {l : Nat} (hl : 1 ≤ l) (ht : t.length = l - 1) (hs : s ≠ []) :
    mod2div (s ++ t) (rep l false) = .ok t := by
  have hpos : 1 ≤ s.length := List.length_pos_of_ne_nil hs
  have hle : (rep l false).length ≤ (s ++ t).length := by
    rw [rep_length, List.length_append]
    omega
  rw [mod2div_eq_ok_iff (by rwa [rep_length]) hle, rep_length, crcDivisor_zeros, ← ht,
    polyOf_append_modByMonic_X_pow]
  exact ⟨rfl, rfl⟩

end Sys2Proof.Machine

open Sys2Proof Sys2Proof.Machine

/-- Settles O20: the sum that carried has room for its carry, so one turn ends the loop. -/
theorem wrapLoopNeedsNoMoreFuel : Obligations.WrapLoopNeedsNoMoreFuel := by
  unfold Obligations.WrapLoopNeedsNoMoreFuel
  intro a b s c h fuel
  cases c with
  | false => rw [wrapCarry_false, wrapCarry_false]
  | true =>
    obtain ⟨s', hwrap, -⟩ := exists_wrap_of_carry h
    rw [wrapCarry_succ_of_wrap hwrap fuel, wrapCarry_succ_of_wrap hwrap 0]

/-- Settles O28: the generator's polynomial is a power of x, so the remainder is the string's last bits. -/
theorem allZeroGeneratorPassesThrough : Obligations.AllZeroGeneratorPassesThrough := by
  unfold Obligations.AllZeroGeneratorPassesThrough
  intro s l hl h
  have hlast : (s.drop (s.length - l + 1)).length = l - 1 := by
    rw [List.length_drop]
    omega
  have hfirst : s.take (s.length - l + 1) ≠ [] :=
    List.ne_nil_of_length_pos (by rw [List.length_take]; omega)
  have hmod := mod2div_append_zeros (by omega) hlast hfirst
  rwa [List.take_append_drop] at hmod

end

section
/-! PROOFS. The frame of the commands and of the accesses, and accesses in either order or twice; O32, O33, O34, O35 and
O40 (10_state.md, 20_memory.md, 60_exceptions.md). -/

namespace Sys2Proof.Machine

/-! ### Commands -/

theorem execute_encode (i : Instr) (e : Engine) : execute (encode i) e = runInstr i e := by
  simp [execute]

/-- A command whose operands R222 fails commits that failure (R223). -/
theorem exec_of_failureOf_some {i : Instr} {s : State} {e : Engine} {f : Failure} (hs : s.selected = some e)
    (hf : failureOf (encode i) e = some f) : exec i s = .next (s.setSelected (e.withFailure f)) := by
  rw [exec_eq_command, State.command_some hs, ← execute_encode, execute_of_failureOf_some hf, Engine.commit_error,
    Engine.commitFailure_eq_withFailure]

/-- All that a command can do: commit its outcome on the selected instance. -/
theorem exec_next_eq {i : Instr} {s t : State} (h : exec i s = .next t) :
    ∃ e, s.selected = some e ∧ t = s.setSelected (e.commit (runInstr i e)) := by
  rw [exec_eq_command] at h
  obtain ⟨e, hs, hnext⟩ | ⟨-, hrefused⟩ := s.command_cases (runInstr i)
  · cases h.symm.trans hnext
    exact ⟨e, hs, rfl⟩
  · cases h.symm.trans hrefused

/-! ### Accesses in either order -/

/-- A well-formed access to an instance is taken, wherever it stands among the inputs (R54, R55). -/
theorem takeEvent_access_of_wf {p : Params} {s : State} {k : Nat} {op : HostOp} {e : Engine}
    (he : s.engines[k]? = some e) (hwf : op.wf p = true) :
    ∃ t, takeEvent p (.access k op) s = .next t ∧ t.engines = s.engines.set k (e.afterOp op) := by
  obtain ⟨t, ht⟩ := stepWith_wf_access_next (s := { s with pending := .access k op :: s.pending }) rfl he hwf
  have htake : takeEvent p (.access k op) s = .next t := ht
  obtain ⟨e', he', -, hengines⟩ := takeEvent_access_next htake
  cases he.symm.trans he'
  exact ⟨t, htake, hengines⟩

/-! ### A repeated command -/

/-- A commit leaves nothing of an earlier one: both write STATUS, ORIG, TX and RX (R129, R223). -/
@[simp] theorem Engine.commit_commit (e : Engine) (o o' : Except Failure CommandResult) :
    (e.commit o).commit o' = e.commit o' := by
  cases o <;> cases o' <;> rfl

/-- The outcome of a command word is the same after a CMD write (R131). -/
theorem execute_afterOp_cmdWrite (v w : Byte) (e : Engine) :
    execute v (e.afterOp (.write 0 (.word w))) = execute v e := by
  obtain ⟨-, hdata, hgen⟩ := Engine.commit_operands { e with cmd := w } (execute w e)
  exact outcomeDependsOnlyOnOperands v _ _ hdata fun _ => hgen

theorem Engine.afterOp_cmdWrite (e : Engine) (v : Byte) :
    e.afterOp (.write 0 (.word v)) = Engine.commit { e with cmd := v } (execute v e) :=
  rfl

/-- CMD holds the word already after its command's commit. -/
theorem Engine.with_cmd_commit (e : Engine) (v : Byte) (o : Except Failure CommandResult) :
    { Engine.commit { e with cmd := v } o with cmd := v } = Engine.commit { e with cmd := v } o := by
  cases o <;> rfl

/-- A second write of the same word to CMD changes nothing (R56). -/
theorem Engine.afterOp_cmdWrite_twice (e : Engine) (v : Byte) :
    (e.afterOp (.write 0 (.word v))).afterOp (.write 0 (.word v)) = e.afterOp (.write 0 (.word v)) := by
  rw [Engine.afterOp_cmdWrite (e.afterOp _), execute_afterOp_cmdWrite, Engine.afterOp_cmdWrite,
    Engine.with_cmd_commit, Engine.commit_commit]

/-- The whole state after a CMD write that is taken (R120). -/
theorem takeEvent_cmdWrite_next {p : Params} {s t : State} {k : Nat} {v : Byte}
    (h : takeEvent p (.access k (.write 0 (.word v))) s = .next t) :
    ∃ e, s.engines[k]? = some e ∧ t = s.afterAccess k s.pending (e.afterOp (.write 0 (.word v))) := by
  obtain ⟨e, he, -, -⟩ := takeEvent_access_next h
  have hstep := stepWith_cmdWrite (s := { s with pending := .access k (.write 0 (.word v)) :: s.pending }) p rfl he
  cases h.symm.trans hstep
  exact ⟨e, he, rfl⟩

/-- An access to the instance of the one before replaces its registers again. -/
theorem State.afterAccess_afterAccess (s : State) (k : Nat) (rest rest' : List HostEvent) (e e' : Engine) :
    (s.afterAccess k rest e).afterAccess k rest' e' = s.afterAccess k rest' e' := by
  simp [State.afterAccess, List.set_set]

end Sys2Proof.Machine

open Sys2Proof Sys2Proof.Machine

/-- Settles O32: the failure of `failureOf` is the command's outcome, and is committed. -/
theorem failedCommandTakesFailure : Obligations.FailedCommandTakesFailure := by
  unfold Obligations.FailedCommandTakesFailure
  exact fun i s e f => exec_of_failureOf_some

/-- Settles O33: a command replaces the registers of the selected instance by a commit over them. -/
theorem commandFrame : Obligations.CommandFrame := by
  unfold Obligations.CommandFrame
  refine fun i s => ⟨fun t h => ?next, fun hnone => ?refused⟩
  case next =>
    obtain ⟨e, hs, rfl⟩ := exec_next_eq h
    refine ⟨rfl, rfl, rfl, rfl, by simp, fun j hj => State.setSelected_other s _ hj, fun e' he' => ?_⟩
    cases hs.symm.trans he'
    exact ⟨_, State.selected_setSelected s e hs, e.commit_operands _⟩
  case refused => rw [exec_eq_command, State.command, State.onSelected_none hnone]

/-- Settles O34: a taken access replaces the registers of the instance it names. -/
theorem otherInstancesUntouched : Obligations.OtherInstancesUntouched := by
  unfold Obligations.OtherInstancesUntouched
  intro p s t k op rest hp hstep
  rw [stepWith_cons p hp] at hstep
  obtain ⟨e, -, -, ht⟩ := takeEvent_access_next hstep
  rw [ht]
  exact ⟨List.length_set, fun j hj => List.getElem?_set_ne hj.symm⟩

/-- Settles O35: each access is an update of its own instance alone, and updates at two places commute. -/
theorem instancesDoNotInterfere : Obligations.InstancesDoNotInterfere := by
  unfold Obligations.InstancesDoNotInterfere
  intro p s u u' t j k a b hjk hu ht hu'
  obtain ⟨ej, hej, hwfa, hue⟩ := takeEvent_access_next hu
  obtain ⟨ek, hek, -, hue'⟩ := takeEvent_access_next hu'
  obtain ⟨ek', hek', -, hte⟩ := takeEvent_access_next ht
  rw [hue, List.getElem?_set_ne hjk] at hek'
  cases hek.symm.trans hek'
  have hej' : u'.engines[j]? = some ej := by rw [hue', List.getElem?_set_ne hjk.symm, hej]
  obtain ⟨t', ht', hte'⟩ := takeEvent_access_of_wf hej' hwfa
  exact ⟨t', ht', by rw [hte', hte, hue, hue', List.set_comm _ _ hjk.symm]⟩

/-- Settles O40: the second command has the outcome of the first, and its commit writes what the first's did. -/
theorem repeatedCommandLeavesSameRegisters : Obligations.RepeatedCommandLeavesSameRegisters := by
  unfold Obligations.RepeatedCommandLeavesSameRegisters
  intro p s t u k v ht hu
  obtain ⟨e, he, rfl⟩ := takeEvent_cmdWrite_next ht
  obtain ⟨e', he', rfl⟩ := takeEvent_cmdWrite_next hu
  obtain ⟨hk, -⟩ := List.getElem?_eq_some_iff.mp he
  rw [State.afterAccess_engines, List.getElem?_set_self hk] at he'
  cases he'
  rw [State.afterAccess_afterAccess, Engine.afterOp_cmdWrite_twice, State.afterAccess_pending]

end

section
/-! PROOFS. The steps of a command word, of a refused access and without input, the STATUS words and the open
parameters; O7, O8, O31, O41, O43 and O44 (41_invocation.md, 60_exceptions.md, 00_scope.md). -/

namespace Sys2Proof.Machine

/-! ### The step of a legal command word -/

/-- A step that takes a write of a legal word to CMD runs its instruction (R22, R120). -/
theorem stepWith_cmdWrite_of_decode {s : State} {k : Nat} {v : Byte} {rest : List HostEvent} {e : Engine} {i : Instr}
    (p : Params) (hp : s.pending = .access k (.write 0 (.word v)) :: rest) (he : s.engines[k]? = some e)
    (hi : decode v = .ok i) : stepWith p s = exec i (s.afterAccess k rest { e with cmd := v }) := by
  have hrun : onWriteCmd v e { s with sel := k, pending := rest } =
      exec i (s.afterAccess k rest { e with cmd := v }) := by
    rw [onWriteCmd, hi]
    rfl
  rw [stepWith_write p hp he, ← hrun]
  rfl

theorem tableByte_eq_ofNat {w : Nat} (h : w < 256) : tableByte 8 w = BitVec.ofNat 8 w :=
  congrArg (BitVec.ofNat 8) (Nat.mod_eq_of_lt h)

theorem decode_of_decodeTableWord {w : Nat} {i : Instr} (hi : decodeTableWord 8 w = some i) :
    decode (tableByte 8 w) = .ok i := by
  unfold decodeTableWord at hi
  cases hd : decode (tableByte 8 w) with
  | ok i' =>
    rw [hd] at hi
    cases hi
    rfl
  | error f =>
    rw [hd] at hi
    cases hi

/-! ### Refused accesses -/

/-- An access to no instance is refused before its operation is looked at (R57, log 7). -/
theorem stepWith_noSuchInstance {s : State} {k : Nat} {op : HostOp} {rest : List HostEvent} (p : Params)
    (hp : s.pending = .access k op :: rest) (hk : s.engines.length ≤ k) :
    stepWith p s = .refused (.noSuchInstance k) := by
  have hnone : ({ s with sel := k, pending := rest } : State).selected = none := List.getElem?_eq_none hk
  rw [stepWith_cons p hp, takeEvent, hostAccess, State.onSelected_none hnone]

/-! ### The STATUS word's fields (R23) -/

@[simp] theorem statusState_statusWord (state : BitVec 2) (errdet : Bool) (fault : BitVec 3) :
    statusState (statusWord state errdet fault) = state := by
  revert state errdet fault; decide

@[simp] theorem statusErrdet_statusWord (state : BitVec 2) (errdet : Bool) (fault : BitVec 3) :
    statusErrdet (statusWord state errdet fault) = errdet := by
  revert state errdet fault; decide

@[simp] theorem statusFault_statusWord (state : BitVec 2) (errdet : Bool) (fault : BitVec 3) :
    statusFault (statusWord state errdet fault) = fault := by
  revert state errdet fault; decide

/-- Bits 3 and 7 are outside the fields. -/
theorem statusWord_reserved_bits (state : BitVec 2) (errdet : Bool) (fault : BitVec 3) :
    (statusWord state errdet fault).getLsbD 3 = false ∧ (statusWord state errdet fault).getLsbD 7 = false := by
  revert state errdet fault; decide

/-! ### The open parameters -/

/-- A capacity beyond its least value, or unbounded, is at least that value (R7). -/
theorem capacityOk_map_add (least : Nat) (room : Option Nat) :
    Params.capacityOk least (room.map (· + least)) = true := by
  cases room with
  | none => rfl
  | some n => exact decide_eq_true (Nat.le_add_left least n)

end Sys2Proof.Machine

open Sys2Proof Sys2Proof.Machine

/-- Settles O7: a CMD write of a word that decodes runs its instruction, whatever the parameters. -/
theorem stepRunsDecodedCommand : Obligations.StepRunsDecodedCommand := by
  unfold Obligations.StepRunsDecodedCommand
  exact fun p s k v rest e i hp he hi =>
    ⟨stepWith_cmdWrite_of_decode p hp he hi, stepWith_cmdWrite_of_decode Config.params hp he hi⟩

/-- Settles O8: the word placed is the next input, a CMD write to the selected instance. -/
theorem placedWordRunsNext : Obligations.PlacedWordRunsNext := by
  unfold Obligations.PlacedWordRunsNext
  intro s w e i hs hw hi
  rw [← tableByte_eq_ofNat hw]
  exact stepWith_cmdWrite_of_decode (s := s.withFetchWord 8 w) Config.params rfl hs (decode_of_decodeTableWord hi)

/-- Settles O31: the fields of a STATUS word read back, and the codes are R220's. -/
theorem statusWordFields : Obligations.StatusWordFields := by
  unfold Obligations.StatusWordFields
  refine ⟨fun err => ?done, fun f => ?failed, ?_, ?_, ?_, ?_, ?_⟩
  case done =>
    exact ⟨statusState_statusWord _ _ _, statusErrdet_statusWord _ _ _, statusFault_statusWord _ _ _,
      statusWord_reserved_bits _ _ _⟩
  case failed =>
    exact ⟨statusState_statusWord _ _ _, statusErrdet_statusWord _ _ _, statusWord_reserved_bits _ _ _⟩
  all_goals exact statusFault_statusWord _ _ _

/-- Settles O41: no instance has the index, or the value is not of the register's kind. -/
theorem accessOutsideInterfaceRefused : Obligations.AccessOutsideInterfaceRefused := by
  unfold Obligations.AccessOutsideInterfaceRefused
  refine fun p s k op rest hp => ⟨stepWith_noSuchInstance p hp, fun hk => ?_⟩
  have he : s.engines[k]? = some s.engines[k] := List.getElem?_eq_getElem hk
  refine ⟨?cmd, ?data, ?gen⟩
  case cmd => rintro syms rfl; exact stepWith_write p hp he
  case data => rintro w rfl; exact stepWith_write p hp he
  case gen => rintro w rfl; exact stepWith_write p hp he

/-- Settles O43: a step takes an input only where one waits. -/
theorem idleStepKeepsState : Obligations.IdleStepKeepsState := by
  unfold Obligations.IdleStepKeepsState
  exact fun p s => stepWith_nil p

/-- Settles O44: each open parameter is given by what it has beyond its least value. -/
theorem openParametersWithinBounds : Obligations.OpenParametersWithinBounds := by
  unfold Obligations.OpenParametersWithinBounds Params.wf
  rw [Bool.and_eq_true, Bool.and_eq_true]
  exact ⟨⟨capacityOk_map_add 1 _, capacityOk_map_add 2 _⟩, decide_eq_true (Nat.le_add_left 1 _)⟩

end
